-- ==== Sys2Proof/Word.lean ====
section
/-! DEFINITION. The word type and the shape of the state array.
R6, R7: every word is an unsigned integer of 32 bits, arithmetic is modulo 2^32; these are `BitVec 32` and its
operations (`+`, `-`, `*` for `+32`, `-32`, `*32`; `^^^`, `&&&`, `|||`, `<<<`, `>>>` for XOR, AND, OR and the logical shifts). -/

namespace Sys2Proof

/-- A state word, seed word or output word: W = 32 bits (R5, R6). -/
abbrev Word := BitVec 32

/-- A command word CW of 34 bits (R37). -/
abbrev CommandWord := BitVec 34

/-- A response word RSP of 35 bits (R41). -/
abbrev ResponseWord := BitVec 35

/-- The state array `MT[0..623]`: 624 words of 32 bits (R11). -/
abbrev StateArray := Vector Word 624

end Sys2Proof
end

