-- ==== Sys2Proof/Config.lean ====
section
/-! DEFINITION. The implementation parameters of R5, each with the value the spec gives it, and the free values: what
the spec leaves unspecified (R22, R82; 93_implementation_defined.md U7, U8), constants with no body. -/

namespace Sys2Proof.Config

/-- HI_MASK of R5: "the top bit of `u`". -/
abbrev hiMask : Word := 0x80000000#32
/-- LO_MASK of R5: "the low 31 bits of `v`". -/
abbrev loMask : Word := 0x7FFFFFFF#32
/-- MAG of R5: the twist constant, second entry of `mag01` (R66). -/
abbrev mag : Word := 0x9908B0DF#32
/-- INIT0 of R5: first word of the linear initialisation (R52). -/
abbrev init0 : Word := 19650218#32
/-- F_INIT of R5: multiplier of the linear initialisation (R52). -/
abbrev fInit : Word := 1812433253#32
/-- F_MIX of R5: multiplier of the key-mixing pass (R53). -/
abbrev fMix : Word := 1664525#32
/-- F_DEC of R5: multiplier of the decorrelation pass (R56). -/
abbrev fDec : Word := 1566083941#32
/-- FINAL0 of R5: value forced into word 0 at the end of seeding (R57). -/
abbrev final0 : Word := 0x80000000#32
/-- First mask of TEMPER of R5, used after the left shift by 7 (R75). -/
abbrev temperMaskB : Word := 0x9D2C5680#32
/-- Second mask of TEMPER of R5, used after the left shift by 15 (R75). -/
abbrev temperMaskC : Word := 0xEFC60000#32

/-- FREE VALUE (log 3). What `MT[i]` holds after the `n`-th event that leaves the contents unspecified (the reset
input, R101; RELEASE on a live engine, R82). No body: nothing can be proved of its value. -/
opaque freeWord : Nat → Nat → Word

/-- FREE VALUE (log 3, log 1). What `IDX` holds after the `n`-th such event. No body. -/
opaque freeIdx : Nat → Fin 625

end Sys2Proof.Config
end

