-- ==== Sys2Proof/Machine/State.lean ====
section
/-! DEFINITION. The state of one engine instance and of its ports, as plain data, and the state after reset.
Architectural state is exactly `mt`, `idx` and `live` (R10). The rest is the engine's interface (R36) and the model's own
bookkeeping: `key`, `host`, `responses`, `keyReads`, `freeCount`. -/

namespace Sys2Proof.Machine

/-- The status of a response (R42). The two codes the table reserves without a name, 0b110 and 0b111, are never produced
and have no constructor. -/
inductive Status where
  /-- 0b000: success. -/
  | ok
  /-- 0b001: SEED with LEN = 0 (R89). -/
  | invalidSeed
  /-- 0b010: NEXT with LIVE = 0 (R90). -/
  | invalidHandle
  /-- 0b011: the reserved opcode (R91). -/
  | illegalCommand
  /-- 0b100: a name of the document's, never produced (R92). -/
  | allocationFailure
  /-- 0b101: a name of the document's, never produced (R92). -/
  | doubleFree
  deriving DecidableEq, Repr

/-- A response, STATUS and DATA (R41). -/
structure Response where
  status : Status
  data : Word
  deriving DecidableEq, Repr

/-- The key space the host presents: address space (2) of R23, read only to the engine (R24).
`cells` lists (index, word) with indices strictly rising and no word equal to what an unlisted index reads as
(`KeySpace.unlisted`); `answered` is how many indices, from 0 up, the host answers (R107). -/
structure KeySpace where
  cells : List (Nat × Word)
  answered : Nat
  deriving DecidableEq, Repr

/-- One thing the host does to the engine (R36, R112). -/
inductive HostEvent where
  /-- A command word on the command port, with the key the host answers reads from while the command runs (R35). -/
  | command (cw : CommandWord) (key : KeySpace)
  /-- The assertion of the reset input (R46). -/
  | reset
  deriving DecidableEq, Repr

/-- Why a step stops. The spec's own errors are responses, not faults (R87). -/
inductive Fault where
  /-- Raised by SEED with LEN >= 1 when the host does not answer every index below LEN: "If the host never answers a read,
  the SEED never completes" (R107), treated as stuck (U5). SAFE: the model stops where the engine waits (log 6). -/
  | keyNeverAnswered
  deriving DecidableEq, Repr

/-- Why a command has no meaning. -/
inductive Refusal where
  /-- Raised by an arm of `exec` whose command has no meaning yet; no arm does. SAFE. -/
  | notModelled (mnemonic : String)
  deriving DecidableEq, Repr

/-- One engine instance with its ports. -/
structure State where
  /-- The state array `MT[0..623]` (R11). -/
  mt : StateArray
  /-- The batch cursor `IDX`, 0..624 (R13; a bounded type as U6 asks, log 1). -/
  idx : Fin 625
  /-- The lifecycle flag `LIVE` (R14). -/
  live : Bool
  /-- The key space presented with the current or last command (R23, R24). -/
  key : KeySpace
  /-- What the host will still do, in order (R33, R112; log 4). Not a queue of the engine's (R105). -/
  host : List HostEvent
  /-- The responses given so far, oldest first (R41, R112; log 7). -/
  responses : List Response
  /-- The indices presented so far on the key read port, oldest first (R25, R44; log 7). -/
  keyReads : List Nat
  /-- The model's own counter of events that left `MT` and `IDX` unspecified (log 3). -/
  freeCount : Nat
  deriving DecidableEq, Repr

/-- The state right after reset: `LIVE = 0` (R22, R101). `MT` and `IDX` are unspecified by R22 and hold zeros here
(log 2); the ports are idle and the host has done nothing (log 4, log 5, log 7). -/
def State.reset : State where
  mt := Vector.replicate 624 0#32
  idx := 0
  live := false
  key := ⟨[], 0⟩
  host := []
  responses := []
  keyReads := []
  freeCount := 0

end Sys2Proof.Machine
end

