-- ==== Sys2Proof/Machine/Ops.lean ====
section
/-! DEFINITION. The named operations: words of the state array, the pseudocode's loops (R8), responses and errors
(R41 to R43, R87), and the events that leave the contents unspecified (R22, R82, R101). -/

namespace Sys2Proof.Machine

/-- `MT[n]` (R8). The index is a plain number; `mod 624` is R31's for the twist and changes no other index the rules
use, since those are 0..623 (log 14). -/
def readMT (mt : StateArray) (n : Nat) : Word :=
  mt[n % 624]'(Nat.mod_lt n (by decide))

/-- `MT[n] <- v` (R8), the index as in `readMT`. -/
def writeMT (mt : StateArray) (n : Nat) (v : Word) : StateArray :=
  mt.set (n % 624) v (Nat.mod_lt n (by decide))

/-- `for v = lo .. lo + n - 1: body` (R8): in that order, each run seeing the writes of the runs before it.
Irreducible, so that comparing two states never unrolls a loop; its laws are `forRange_zero` and `forRange_succ`. -/
@[irreducible] def forRange {σ : Type} (lo : Nat) : Nat → (Nat → σ → σ) → σ → σ
  | 0, _, s => s
  | n + 1, body, s => forRange (lo + 1) n body (body lo s)

/-- `repeat n times: body` (R8). Irreducible as `forRange` is; its laws are `repeatTimes_zero` and `repeatTimes_succ`. -/
@[irreducible] def repeatTimes {σ : Type} : Nat → (σ → σ) → σ → σ
  | 0, _, s => s
  | n + 1, body, s => repeatTimes n body (body s)

/-- The status codes (R42). -/
def statusCode : Status → BitVec 3
  | .ok => 0b000#3
  | .invalidSeed => 0b001#3
  | .invalidHandle => 0b010#3
  | .illegalCommand => 0b011#3
  | .allocationFailure => 0b100#3
  | .doubleFree => 0b101#3

/-- The response word: STATUS in RSP[34:32], DATA in RSP[31:0] (R41). -/
def responseWord (r : Response) : ResponseWord := statusCode r.status ++ r.data

/-- `respond(status, data)` (R8, R41): the command ends, in a next state, with one more response. -/
def respond (st : Status) (data : Word) (s : State) : Host.Outcome State Fault Refusal :=
  .next { s with responses := s.responses ++ [⟨st, data⟩] }

/-- `raise <Error>(none)` (R87): the command ends with the error's status and DATA = 0; no state is changed. The one
operation by which every error is taken. There is no handler and no return from one (R95). -/
def raise (e : Status) (s : State) : Host.Outcome State Fault Refusal :=
  respond e 0#32 s

/-- The unspecified contents of `MT` after the `n`-th event of this kind: 624 free values (log 3). DESIGN CHOICE, unsafe
(log 3, log 13): they depend on `n` and the word's index alone, so two instances at the same count hold the same contents,
which the spec leaves open (R22, R82, R99). -/
@[irreducible] def freeContents (n : Nat) : StateArray := Vector.ofFn fun i => Config.freeWord n i.val

/-- `MT` and `IDX` become unspecified (R22, R82): each word and the cursor take a free value (log 3). DESIGN CHOICE,
unsafe (log 3, log 13): whether two instances, or two runs, then hold the same contents the spec leaves open; in the model
those with equal `freeCount` do, since the free values are applied to it alone. -/
def loseContents (s : State) : State :=
  { s with
    mt := freeContents s.freeCount
    idx := Config.freeIdx s.freeCount
    freeCount := s.freeCount + 1 }

end Sys2Proof.Machine
end

