-- ==== Sys2Proof/Machine/Flags.lean ====
section
/-! DEFINITION. The one flag of the block, `LIVE` (R14), and the one condition on `IDX` that a rule tests (R15, R19).
There are no condition codes: arithmetic sets nothing (R19). -/

namespace Sys2Proof.Machine

/-- `LIVE <- 1`: SEED on success (R57). -/
def goLive (s : State) : State := { s with live := true }

/-- `LIVE <- 0`: RELEASE and reset (R82, R101). -/
def goAbsent (s : State) : State := { s with live := false }

/-- Batch exhausted: `IDX = 624` (R15). -/
def batchExhausted (s : State) : Bool := s.idx.val == 624

/-- The effect of the reset input (R101): `LIVE <- 0`, `MT` and `IDX` unspecified, no response (R46, R100). -/
def resetEngine (s : State) : State := loseContents (goAbsent s)

end Sys2Proof.Machine
end

