-- ==== Sys2Proof/Machine/Twist.lean ====
section
/-! DEFINITION. The twist transform (R64 to R69) and the twist scheduler (R70). Not a command: NEXT runs it. -/

namespace Sys2Proof.Machine

/-- The combined word `y` of the twist mix (R65): `y[31] = u[31]`, `y[30:0] = v[30:0]`. -/
def combine (u v : Word) : Word := (u &&& Config.hiMask) ||| (v &&& Config.loMask)

/-- The twist mix of two words (R65). -/
def mix (u v : Word) : Word :=
  let y := combine u v
  if y.getLsbD 0 then (y >>> 1) ^^^ Config.mag else y >>> 1

/-- The constant table `mag01`, indexed by the low bit of `y` (R66). -/
def mag01 (b : Bool) : Word := if b then Config.mag else 0#32

/-- The twist mix by the table (R66). -/
def mixByTable (u v : Word) : Word :=
  let y := combine u v
  (y >>> 1) ^^^ mag01 (y.getLsbD 0)

/-- Step `k` of the twist pass (R67): three reads, then the write, in place (R68). -/
def twistStep (k : Nat) (mt : StateArray) : StateArray :=
  writeMT mt k (readMT mt (k + 397) ^^^ mix (readMT mt k) (readMT mt (k + 1)))

/-- The twist pass over the array (R67): ascending `k`, one array (R68). -/
def twist (mt : StateArray) : StateArray := forRange 0 624 twistStep mt

/-- The three-range form of the pass (R69), with no modulo arithmetic. -/
def twist3Range (mt : StateArray) : StateArray :=
  let a := forRange 0 227 (fun k m => writeMT m k (readMT m (k + 397) ^^^ mix (readMT m k) (readMT m (k + 1)))) mt
  let b := forRange 227 396 (fun k m => writeMT m k (readMT m (k - 227) ^^^ mix (readMT m k) (readMT m (k + 1)))) a
  writeMT b 623 (readMT b 396 ^^^ mix (readMT b 623) (readMT b 0))

/-- `twist()` on the engine (R67): the pass, then `IDX <- 0`. -/
def twistEngine (s : State) : State := { s with mt := twist s.mt, idx := 0 }

/-- `schedule()` (R70): a twist if and only if the batch is exhausted. -/
def schedule (s : State) : State := if batchExhausted s then twistEngine s else s

end Sys2Proof.Machine
end

