-- ==== Sys2Proof/Machine/Draw.lean ====
section
/-! DEFINITION. The temper pipeline (R75, R76) and the draw: command NEXT (R74, R80). -/

namespace Sys2Proof.Machine

/-- Stage 1 of the pipeline: right 11 (R76). -/
def temperStage1 (y : Word) : Word := y ^^^ (y >>> 11)
/-- Stage 2: left 7, mask 0x9D2C5680 (R76). -/
def temperStage2 (y : Word) : Word := y ^^^ ((y <<< 7) &&& Config.temperMaskB)
/-- Stage 3: left 15, mask 0xEFC60000 (R76). -/
def temperStage3 (y : Word) : Word := y ^^^ ((y <<< 15) &&& Config.temperMaskC)
/-- Stage 4: right 18 (R76). -/
def temperStage4 (y : Word) : Word := y ^^^ (y >>> 18)

/-- The temper function `T` (R75): the four stages in order. -/
def temper (y : Word) : Word := temperStage4 (temperStage3 (temperStage2 (temperStage1 y)))

/-- The raw word `MT[IDX]` (R74); `IDX` is 0..623 here. -/
def rawWord (s : State) : Word := readMT s.mt s.idx.val

/-- `IDX <- IDX + 1` (R74); at most 624, since `IDX` is 0..623 here. -/
def advanceIdx (s : State) : State :=
  { s with idx := ⟨(s.idx.val + 1) % 625, Nat.mod_lt _ (by decide)⟩ }

/-- NEXT (R74): refused on an absent engine (R80); otherwise the scheduler, the draw, the temper. -/
def execNext (s : State) : Host.Outcome State Fault Refusal :=
  if s.live then respond .ok (temper (rawWord (schedule s))) (advanceIdx (schedule s))
  else raise .invalidHandle s

end Sys2Proof.Machine
end

