-- ==== Sys2Proof/Machine/Lifecycle.lean ====
section
/-! DEFINITION. The lifecycle family: command RELEASE (R82, R83). -/

namespace Sys2Proof.Machine

/-- RELEASE: on a live engine `LIVE <- 0` and the contents become unspecified (R82); on an absent one nothing (R83).
Either way it answers OK with DATA = 0. -/
def execRelease (s : State) : Host.Outcome State Fault Refusal :=
  respond .ok 0#32 (if s.live then loseContents (goAbsent s) else s)

end Sys2Proof.Machine
end

