-- ==== Sys2Proof/Machine/Reserved.lean ====
section
/-! DEFINITION. The reserved opcode 0b00 (R40, R91). -/

namespace Sys2Proof.Machine

/-- The reserved opcode: changes no state, answers IllegalCommand (R40, R91). -/
def execReserved (s : State) : Host.Outcome State Fault Refusal := raise .illegalCommand s

end Sys2Proof.Machine
end

