-- ==== Sys2Proof/Machine/Operands.lean ====
section
/-! DEFINITION. The operand forms: the key space, read by SEED through the key port (R24, R44). LEN, the only immediate
(R38), is the argument of `Instr.seed`. The engine only reads the key space; `write` and `ofWords` are the host's. -/

namespace Sys2Proof.Machine

/-- What an index the list does not name reads as. A way of writing keys down: any key is expressible (log 5). -/
def KeySpace.unlisted : Word := 0#32

/-- The word listed for index `j`, if any. -/
def lookupCell (j : Nat) : List (Nat × Word) → Word
  | [] => KeySpace.unlisted
  | (i, w) :: rest => if i = j then w else lookupCell j rest

/-- `KeyRead(j)` (R24): the word `key[j]`, with no side effect. -/
def keyRead (k : KeySpace) (j : Nat) : Word := lookupCell j k.cells

/-- The host answers every index below `len` (R107). -/
def answersAll (k : KeySpace) (len : Nat) : Bool := decide (len ≤ k.answered)

/-- Put `w` at index `j` of a rising list, keeping it rising and free of `unlisted` words. -/
def putCell (j : Nat) (w : Word) : List (Nat × Word) → List (Nat × Word)
  | [] => if w = KeySpace.unlisted then [] else [(j, w)]
  | (i, v) :: rest =>
    if i < j then (i, v) :: putCell j w rest
    else if i = j then (if w = KeySpace.unlisted then rest else (j, w) :: rest)
    else if w = KeySpace.unlisted then (i, v) :: rest else (j, w) :: (i, v) :: rest

/-- The host sets the word at index `j` (never while a SEED runs, R106). -/
def writeKey (k : KeySpace) (j : Nat) (w : Word) : KeySpace :=
  { k with cells := putCell j w k.cells }

/-- The cells of the words `ws` at indices `j`, `j + 1`, ... -/
def cellsFrom (j : Nat) : List Word → List (Nat × Word)
  | [] => []
  | w :: ws => if w = KeySpace.unlisted then cellsFrom (j + 1) ws else (j, w) :: cellsFrom (j + 1) ws

/-- The key space that holds exactly the words `ws`, answering as many indices (R48: the brace list). -/
def keyOfWords (ws : List Word) : KeySpace := ⟨cellsFrom 0 ws, ws.length⟩

/-- The canonical form of a list of cells whose indices all lie in `lo ≤ j < hi`: rising, no `unlisted` word. -/
def cellsWf (lo hi : Nat) : List (Nat × Word) → Bool
  | [] => true
  | (i, w) :: rest => decide (lo ≤ i) && decide (i < hi) && decide (w ≠ KeySpace.unlisted) && cellsWf (i + 1) hi rest

/-- The canonical form of a key space: its cells are canonical and lie below the indices a 32-bit index can name (R23). -/
def KeySpace.wf (k : KeySpace) : Bool := cellsWf 0 (2 ^ 32) k.cells

end Sys2Proof.Machine
end

