-- ==== Sys2Proof/Machine/Seed.lean ====
section
/-! DEFINITION. The seed initializer: command SEED (R50 to R63). -/

namespace Sys2Proof.Machine

/-- The transient state of the seeding sequencer (R17): the array, the cursors `i` and `j`, and the key indices presented
so far, newest first. Gone when the command responds. -/
structure SeedSweep where
  mt : StateArray
  i : Nat
  j : Nat
  reads : List Nat
  deriving DecidableEq, Repr

/-- `x XOR (x >> 30)`, common to the three passes (R52, R53, R56). -/
def foldTop (x : Word) : Word := x ^^^ (x >>> 30)

/-- One word of phase A (R52). -/
def phaseAStep (i : Nat) (mt : StateArray) : StateArray :=
  writeMT mt i (Config.fInit * foldTop (readMT mt (i - 1)) + BitVec.ofNat 32 i)

/-- Phase A, linear initialisation (R52). -/
def phaseA (mt : StateArray) : StateArray :=
  forRange 1 623 phaseAStep (writeMT mt 0 Config.init0)

/-- `advance_i()` (R54): with the copy `MT[0] <- MT[623]` when `i` reaches 624. -/
def advanceI (c : SeedSweep) : SeedSweep :=
  if c.i + 1 = 624 then { c with mt := writeMT c.mt 0 (readMT c.mt 623), i := 1 }
  else { c with i := c.i + 1 }

/-- `advance_j(LEN)` (R55). -/
def advanceJ (len : Nat) (c : SeedSweep) : SeedSweep :=
  { c with j := if c.j + 1 = len then 0 else c.j + 1 }

/-- The write of one iteration of phase B (R53), reading the key at `j` (R24). -/
def mixKeyWord (key : KeySpace) (c : SeedSweep) : SeedSweep :=
  let t := foldTop (readMT c.mt (c.i - 1))
  { c with
    mt := writeMT c.mt c.i
      (((readMT c.mt c.i) ^^^ (t * Config.fMix)) + keyRead key c.j + BitVec.ofNat 32 c.j)
    reads := c.j :: c.reads }

/-- One iteration of phase B (R53): the write, then the advances of `i` and of `j`. -/
def phaseBStep (key : KeySpace) (len : Nat) (c : SeedSweep) : SeedSweep :=
  advanceJ len (advanceI (mixKeyWord key c))

/-- Phase B, key mixing (R53): `max(624, LEN)` iterations from `i = 1`, `j = 0`. -/
def phaseB (key : KeySpace) (len : Nat) (mt : StateArray) : SeedSweep :=
  repeatTimes (max 624 len) (phaseBStep key len) ⟨mt, 1, 0, []⟩

/-- The write of one iteration of phase C (R56). -/
def decorrelateWord (c : SeedSweep) : SeedSweep :=
  let t := foldTop (readMT c.mt (c.i - 1))
  { c with mt := writeMT c.mt c.i (((readMT c.mt c.i) ^^^ (t * Config.fDec)) - BitVec.ofNat 32 c.i) }

/-- One iteration of phase C (R56). -/
def phaseCStep (c : SeedSweep) : SeedSweep := advanceI (decorrelateWord c)

/-- Phase C, decorrelation (R56): 623 iterations; `i` carries over from phase B (R58). -/
def phaseC (c : SeedSweep) : SeedSweep := repeatTimes 623 phaseCStep c

/-- Phase D, finalisation (R57): `MT[0] <- 0x80000000`, `IDX <- 624`, `LIVE <- 1`. -/
def phaseD (mt : StateArray) (s : State) : State :=
  goLive { s with mt := writeMT mt 0 Config.final0, idx := 624 }

/-- The state a successful SEED leaves, before its response: the four phases in order (R50). -/
def seedState (len : Nat) (s : State) : State :=
  let b := phaseB s.key len (phaseA s.mt)
  phaseD (phaseC b).mt { s with keyReads := s.keyReads ++ b.reads.reverse }

/-- SEED (R50). LEN = 0 is refused before anything is read or written (R51). `LIVE` is not tested (R60). A host that does
not answer every read leaves the SEED waiting for ever (R107; log 6). -/
def execSeed (len : Word) (s : State) : Host.Outcome State Fault Refusal :=
  if len = 0#32 then raise .invalidSeed s
  else if answersAll s.key len.toNat then respond .ok 0#32 (seedState len.toNat s)
  else .fault .keyNeverAnswered

end Sys2Proof.Machine
end

