-- ==== Sys2Proof/Syntax.lean ====
section
/-! DEFINITION. The commands of the engine, one constructor per row of spec/opcode_table.json (R37).
LEN is the only operand in a command word (R38); NEXT, RELEASE and the reserved opcode ignore it and carry none. -/

namespace Sys2Proof

/-- The decoded commands (R39): every one of the 2^34 command words is exactly one of these. -/
inductive Instr where
  /-- SEED(LEN), R50: run the seed initializer over `key[0..LEN-1]`. -/
  | seed (len : Word)
  /-- NEXT, R74: return the next tempered word. -/
  | next
  /-- RELEASE, R82 and R83: give the generator up. -/
  | release
  /-- The reserved opcode 0b00, R40. -/
  | reserved
  deriving DecidableEq, Repr

end Sys2Proof
end

