-- ==== Sys2Proof/Machine/Dispatch.lean ====
section
/-! DEFINITION. One arm per command (R37, R94: the opcode is decoded first). -/

namespace Sys2Proof.Machine

open Sys2Proof

def exec (i : Instr) (s : State) : Host.Outcome State Fault Refusal :=
  match i with
  | .seed len => Sys2Proof.Machine.execSeed len s
  | .next => Sys2Proof.Machine.execNext s
  | .release => Sys2Proof.Machine.execRelease s
  | .reserved => Sys2Proof.Machine.execReserved s

end Sys2Proof.Machine
end

