-- ==== Sys2Proof/Assembly.lean ====
section
/-! DEFINITION. The lines of the assembler syntax (R48) and the pseudo-instructions (R49), as data. What a line stands
for is `Sys2Proof.Machine.assembleLine` in Machine/Assembler.lean. Numbers are as written; their ranges are checked by
`AsmLine.wellFormed`. -/

namespace Sys2Proof

/-- One line of a command sequence, R48 and R49. -/
inductive AsmLine where
  /-- `SEED <len>, (<w0>, ..)`: the list in braces is the key space of the command. -/
  | seed (len : Nat) (words : List Nat)
  /-- `NEXT`. -/
  | next
  /-- `RELEASE`. -/
  | release
  /-- `.word34 <value>`: any command word, as given. -/
  | word34 (value : Nat)
  /-- `RESET`: not a command, the assertion of the reset input. -/
  | reset
  /-- Pseudo-instruction `CREATE (w0, ..)`: SEED with the length of the list. -/
  | create (words : List Nat)
  /-- Pseudo-instruction `DESTROY`: RELEASE. -/
  | destroy
  /-- Pseudo-instruction `NEXTU32`: NEXT. -/
  | nextU32
  /-- Pseudo-instruction `NEXT n`: NEXT repeated n times. -/
  | nextTimes (n : Nat)
  /-- Pseudo-instruction `NOP`: `.word34 0x000000000`. -/
  | nop
  deriving DecidableEq, Repr

end Sys2Proof
end

