-- ==== Sys2Proof/WellFormed.lean ====
section
/-! DEFINITION. Well-formedness of the syntax. A decoded command has no ill-formed term: every LEN is encodable and
decoding is total (R38, R39), so `Instr.wellFormed` refuses nothing. The checks there are concern assembler lines (R48). -/

namespace Sys2Proof

/-- Every decoded command is well formed (R38: every LEN is a legal field value; R39). -/
def Instr.wellFormed : Instr → Bool
  | .seed _ => true
  | .next => true
  | .release => true
  | .reserved => true

/-- A number is an unsigned 32-bit number (R48). -/
def fits32 (n : Nat) : Bool := decide (n < 2 ^ 32)

/-- The checks of R48 on a line: numbers in range, and as many words as the written length says. -/
def AsmLine.wellFormed : AsmLine → Bool
  | .seed len words => fits32 len && words.all fits32 && decide (words.length = len)
  | .next => true
  | .release => true
  | .word34 value => decide (value < 2 ^ 34)
  | .reset => true
  | .create words => fits32 words.length && words.all fits32
  | .destroy => true
  | .nextU32 => true
  | .nextTimes _ => true
  | .nop => true

end Sys2Proof
end

