-- ==== Sys2Proof/Decode.lean ====
section
/-! DEFINITION. Decoding and encoding of command words (R37 to R40, R47).
A command word is one 34-bit word; it is never laid out in bytes (R26, R47). Decoding is total and by OP alone (R39). -/

namespace Sys2Proof

/-- The field OP = CW[33:32] (R37). -/
def opField (cw : CommandWord) : BitVec 2 := cw.extractLsb' 32 2

/-- The field LEN = CW[31:0] (R37), used as it stands (R38). -/
def lenField (cw : CommandWord) : Word := cw.extractLsb' 0 32

/-- Decoding, by OP alone (R37, R39). Total: no word is undecodable. -/
def decode (cw : CommandWord) : Instr :=
  if opField cw = 0b01#2 then .seed (lenField cw)
  else if opField cw = 0b10#2 then .next
  else if opField cw = 0b11#2 then .release
  else .reserved

/-- The opcode of a command (R37). -/
def opcodeOf : Instr → BitVec 2
  | .seed _ => 0b01#2
  | .next => 0b10#2
  | .release => 0b11#2
  | .reserved => 0b00#2

/-- The LEN bits of a command; for those that ignore LEN the assembler emits 0 (R38). -/
def lenOf : Instr → Word
  | .seed len => len
  | .next => 0#32
  | .release => 0#32
  | .reserved => 0#32

/-- Encoding: the command word OP in the high two bits, LEN in the low 32 (R37). -/
def encode (i : Instr) : CommandWord := opcodeOf i ++ lenOf i

/-- A row of the command table as match and mask over the 34-bit word (R37). -/
structure OpcodeRow where
  mnemonic : String
  mask : CommandWord
  pattern : CommandWord
  deriving DecidableEq, Repr

/-- "As match and mask over the 34-bit word" (R37), in the order of spec/opcode_table.json. -/
def opcodeTable : List OpcodeRow :=
  [ ⟨"SEED", 0x300000000#34, 0x100000000#34⟩,
    ⟨"NEXT", 0x300000000#34, 0x200000000#34⟩,
    ⟨"RELEASE", 0x300000000#34, 0x300000000#34⟩,
    ⟨"RESERVED", 0x300000000#34, 0x000000000#34⟩ ]

/-- A command word matches a row of the table. -/
def OpcodeRow.matchesWord (r : OpcodeRow) (cw : CommandWord) : Bool := (cw &&& r.mask) == r.pattern

/-- The mnemonic of a command, as the table spells it. -/
def mnemonicOf : Instr → String
  | .seed _ => "SEED"
  | .next => "NEXT"
  | .release => "RELEASE"
  | .reserved => "RESERVED"

/-- The command word whose bits are the low `nbits` bits of `w`, every bit above them 0; the port has 34 wires, so bits
from 34 up do not exist (log 9). -/
def tableWord (nbits w : Nat) : CommandWord := BitVec.ofNat 34 (w % 2 ^ nbits)

/-- The host's entry to the decoder: what the decoder reads from the command word numbered `w`. Never `none`, since
decoding is total (R39). -/
def decodeTableWord (nbits w : Nat) : Option Instr := some (decode (tableWord nbits w))

end Sys2Proof
end

