-- ==== Sys2Proof/Machine/Port.lean ====
section
/-! DEFINITION. The command port and the reset input (R36): what the engine finds there when it is ready for the next
command, and how a command is put there. -/

namespace Sys2Proof.Machine

/-- What stands at the engine's inputs. -/
inductive PortEvent where
  /-- Nothing: the host issues no command. -/
  | idle
  /-- The reset input is asserted; the state is that before its effect. -/
  | resetInput (s : State)
  /-- A command word is accepted; in the state the key of the command is presented (R44). -/
  | accepted (cw : CommandWord) (s : State)
  deriving DecidableEq, Repr

/-- The engine takes the host's next event (R33, R45: one at a time, in order). -/
def takeEvent (s : State) : PortEvent :=
  match s.host with
  | [] => .idle
  | .reset :: rest => .resetInput { s with host := rest }
  | .command cw key :: rest => .accepted cw { s with key := key, host := rest }

/-- A key space of words 0 that answers as many indices as a SEED in `cw` asks for (R107). -/
def zeroKeyFor (cw : CommandWord) : KeySpace := ⟨[], (lenField cw).toNat⟩

/-- The host issues `cw` next, before anything else it will do. -/
def presentCommand (cw : CommandWord) (key : KeySpace) (s : State) : State :=
  { s with host := .command cw key :: s.host }

end Sys2Proof.Machine
end

