-- ==== Sys2Proof/Machine/Step.lean ====
section
/-! DEFINITION. One step: one host command from its acceptance to its response, indivisible (R9), or the reset input
(R102), or nothing when the host issues nothing (R98: "Between commands it is idle and keeps its state"). -/

namespace Sys2Proof.Machine

def step (s : State) : Host.Outcome State Fault Refusal :=
  match takeEvent s with
  | .idle => .next s
  | .resetInput t => .next (resetEngine t)
  | .accepted cw t => exec (decode cw) t

/-- The command numbered `w` stands next on the command port, with a key that answers its reads (log 4, log 9). -/
def State.withFetchWord (s : State) (nbits w : Nat) : State :=
  presentCommand (tableWord nbits w) (zeroKeyFor (tableWord nbits w)) s

end Sys2Proof.Machine
end

