-- ==== Sys2Proof/Machine/Assembler.lean ====
section
/-! DEFINITION. The assembler (R48) and the expansion of pseudo-instructions (R49): a command sequence becomes what the
host does. -/

namespace Sys2Proof.Machine

/-- The command a line of core syntax issues, with the words of its brace list as key; a line without one has the empty
key (log 11). -/
def commandEvent (i : Instr) (words : List Word) : HostEvent := .command (encode i) (keyOfWords words)

/-- `SEED len, (words)` (R48): CW = (0b01, len), key[j] = w_j. -/
def seedEvent (len : Nat) (words : List Nat) : HostEvent :=
  commandEvent (.seed (BitVec.ofNat 32 len)) (words.map (BitVec.ofNat 32))

/-- `.word34 value` (R48): the word as given, with no key (log 11). -/
def wordEvent (value : Nat) : HostEvent := .command (BitVec.ofNat 34 value) (keyOfWords [])

/-- What one line stands for (R48, R49). -/
def assembleLine : AsmLine → List HostEvent
  | .seed len words => [seedEvent len words]
  | .next => [commandEvent .next []]
  | .release => [commandEvent .release []]
  | .word34 value => [wordEvent value]
  | .reset => [.reset]
  | .create words => [seedEvent words.length words]
  | .destroy => [commandEvent .release []]
  | .nextU32 => [commandEvent .next []]
  | .nextTimes n => List.replicate n (commandEvent .next [])
  | .nop => [wordEvent 0]

/-- A command sequence, line by line. -/
def assemble (lines : List AsmLine) : List HostEvent := lines.flatMap assembleLine

end Sys2Proof.Machine
end

