-- ==== Sys2Proof/Machine/Fast.lean ====
section
/-! DEFINITION. List forms of the seeding and of the twist that Lean's kernel evaluates quickly. They are no part of the
machine's meanings: the statements SeedListAgrees and TwistListAgrees say that they give the same words. The forms rest on
two facts of the rules: every iteration reads the word the iteration before it wrote (R32, R54), and the twist is the
recurrence of R68. -/

namespace Sys2Proof.Machine

/-- Phase A as a list: `n` words from index `i` on, each from the one before (R52). -/
def linearWords : Nat → Nat → Word → List Word
  | 0, _, _ => []
  | n + 1, i, prev =>
    let v := Config.fInit * foldTop prev + BitVec.ofNat 32 i
    v :: linearWords n (i + 1) v

/-- Phase C as a walk around the ring of words 1..623: `todo` are the words from `i` to 623, `walked` those below `i`,
newest first, `prev` the word written last. Gives the words 1..623 at the end (R56). -/
def decorrelateRing : Nat → Nat → Word → List Word → List Word → List Word
  | 0, _, _, walked, todo => walked.reverse ++ todo
  | _ + 1, _, _, walked, [] => walked.reverse
  | n + 1, i, prev, walked, x :: rest =>
    let v := (x ^^^ (foldTop prev * Config.fDec)) - BitVec.ofNat 32 i
    match rest with
    | [] => decorrelateRing n 1 v [] (v :: walked).reverse
    | y :: ys => decorrelateRing n (i + 1) v (v :: walked) (y :: ys)

/-- Phase B as the same walk, with the key cursor `j`, followed by phase C from where it stands (R53, R58). -/
def mixRing (key : KeySpace) (len : Nat) : Nat → Nat → Nat → Word → List Word → List Word → List Word
  | 0, i, _, prev, walked, todo => decorrelateRing 623 i prev walked todo
  | _ + 1, _, _, _, walked, [] => walked.reverse
  | n + 1, i, j, prev, walked, x :: rest =>
    let v := (x ^^^ (foldTop prev * Config.fMix)) + keyRead key j + BitVec.ofNat 32 j
    let j' := if j + 1 = len then 0 else j + 1
    match rest with
    | [] => mixRing key len n 1 j' v [] (v :: walked).reverse
    | y :: ys => mixRing key len n (i + 1) j' v (v :: walked) (y :: ys)

/-- The seeded array as a list of 624 words (R50). -/
def seedList (key : KeySpace) (len : Nat) : List Word :=
  Config.final0 :: mixRing key len (max 624 len) 1 0 Config.init0 [] (linearWords 623 1 Config.init0)

/-- The recurrence of R68 on lists: `us` from x[n], `vs` from x[n+1], `ws` from x[n+397], as many words as `us` has. -/
def twistWordsFrom : List Word → List Word → List Word → List Word
  | u :: us, v :: vs, w :: ws => (w ^^^ mix u v) :: twistWordsFrom us vs ws
  | _, _, _ => []

/-- The twist of a list of 624 words: words 0..226, 227..453, 454..622 and 623 in turn, each from old words and from new
words made before it (R68, R69). -/
def twistList (xs : List Word) : List Word :=
  let a := twistWordsFrom (xs.take 227) (xs.drop 1) (xs.drop 397)
  let b := twistWordsFrom ((xs.drop 227).take 227) (xs.drop 228) a
  let c := twistWordsFrom ((xs.drop 454).take 169) (xs.drop 455) b
  let d := twistWordsFrom (xs.drop 623) a (b.drop 169)
  a ++ b ++ c ++ d

end Sys2Proof.Machine
end

