-- ==== Sys2Proof/Machine/Instances.lean ====
section
/-! DEFINITION. Several generators are several engine instances: the product of n copies of the machine (R99), any
interleaving of their command streams (log 13). -/

namespace Sys2Proof.Machine

/-- A system of instances, each with its own ports (R99). -/
abbrev System := List State

/-- One step of one instance; an instance that cannot go on stays where it is. -/
def stepInstance (s : State) : State :=
  match step s with
  | .next t => t
  | .fault _ => s
  | .refused _ => s

/-- Instance `n` of the system takes a step; the others share nothing with it (R99). -/
def stepSystemAt (n : Nat) (sys : System) : System := sys.modify n stepInstance

/-- An interleaving: the instances named by `sched` take a step in that order. -/
def runInterleaved (sched : List Nat) (sys : System) : System :=
  sched.foldl (fun y n => stepSystemAt n y) sys

end Sys2Proof.Machine
end

