-- ==== Sys2Proof/Safety.lean ====
section
/-! DEFINITION. What counts as a safe run, in the terms the statements use: the invariant of R16, the duties of the host
(R107), what the outside can tell of a state (R21, R112), and sequences of commands (R33). -/

namespace Sys2Proof.Machine

/-- The key presented with an event is in canonical form. -/
def eventWf : HostEvent → Bool
  | .command _ key => key.wf
  | .reset => true

/-- The invariant of a state between commands: R16 (a), `1 <= IDX` while live (`IDX <= 624` holds by its type), and the
canonical form of the key presented and of those the host will present. -/
abbrev Inv (s : State) : Prop :=
  (s.live = true → 1 ≤ s.idx.val) ∧ s.key.wf = true ∧ ∀ e ∈ s.host, eventWf e = true

/-- An event keeps the host's duty of R107: the key of a SEED answers every index below LEN. -/
def eventDutiful : HostEvent → Bool
  | .command cw key =>
    match decode cw with
    | .seed len => answersAll key len.toNat
    | .next => true
    | .release => true
    | .reserved => true
  | .reset => true

/-- Everything the host will still do keeps its duty (R107). -/
abbrev HostDutiful (s : State) : Prop := ∀ e ∈ s.host, eventDutiful e = true

/-- An event is a command, so it is answered by a response (R41); the reset input is not (R46). -/
def isCommand : HostEvent → Bool
  | .command _ _ => true
  | .reset => false

/-- Two states that no port can tell apart (R21, R22): the same but for `MT` and `IDX` while `LIVE = 0`, and for the
model's own counter. -/
abbrev SameView (s t : State) : Prop :=
  s.live = t.live ∧ (s.live = true → s.mt = t.mt ∧ s.idx = t.idx) ∧
    s.key = t.key ∧ s.host = t.host ∧ s.responses = t.responses ∧ s.keyReads = t.keyReads

/-- A run of `n` steps (R112), stopping at the first stop: the same as the host's `Host.Core.run` of this machine
(`runSteps_eq_run` in Laws/Exec.lean). -/
def runSteps : Nat → State → Host.Outcome State Fault Refusal
  | 0, s => .next s
  | n + 1, s =>
    match step s with
    | .next t => runSteps n t
    | .fault f => .fault f
    | .refused r => .refused r

/-- A sequence of commands, each on the state the one before it left (R33). -/
def runCommands : List Instr → State → Host.Outcome State Fault Refusal
  | [], s => .next s
  | i :: rest, s =>
    match exec i s with
    | .next t => runCommands rest t
    | .fault f => .fault f
    | .refused r => .refused r

/-- A command that is a draw, or is refused whatever the state: the reserved opcode and the empty SEED (R40, R51). -/
def drawOrRefused (i : Instr) : Bool :=
  match i with
  | .seed len => len == 0#32
  | .next => true
  | .release => false
  | .reserved => true

/-- The DATA words of the responses with status OK, in order. -/
def okData (rs : List Response) : List Word := (rs.filter fun r => r.status == .ok).map Response.data

/-- Whether two outcomes look the same from outside. -/
def outcomesAgree : Host.Outcome State Fault Refusal → Host.Outcome State Fault Refusal → Prop
  | .next s, .next t => SameView s t
  | .fault f, .fault g => f = g
  | .refused r, .refused q => r = q
  | _, _ => False

end Sys2Proof.Machine
end

