-- ==== Sys2Proof/Certificates/Slice0/Obligations.lean ====
section
/-! DEFINITION. The statements for the provers, by file of the spec. Each docstring names the rules it formalises. Where a
state after a command holds a free value (`MT` and `IDX` after RELEASE and after the reset input), no statement says which. -/

open Sys2Proof Sys2Proof.Machine

/-! ### Encodings (30_encoding.md) -/

/-- Decoding undoes encoding, for every command and every LEN, and the LEN field holds the command's LEN bits
(R37, R38, R39). -/
def Obligations.DecodeOfEncode : Prop :=
  ∀ i : Instr, i.wellFormed = true → decode (encode i) = i ∧ lenField (encode i) = lenOf i

/-- Encoding what a word decodes to gives the word back, its LEN bits cleared where they are ignored (R38). -/
def Obligations.EncodeOfDecode : Prop :=
  ∀ cw : CommandWord, encode (decode cw) = if opField cw = 0b01#2 then cw else opField cw ++ 0#32

/-- Every command word matches exactly one row of the table, that of the command it decodes to, and the opcode alone
decides which (R37, R39). -/
def Obligations.EachWordMatchesOneRow : Prop :=
  ∀ cw : CommandWord, ∃ r ∈ opcodeTable,
    r.matchesWord cw = true ∧ r.mnemonic = mnemonicOf (decode cw) ∧
      (∀ q ∈ opcodeTable, q.matchesWord cw = true → q = r) ∧
      opcodeOf (decode cw) = opField cw ∧ (opField cw = 0b01#2 → decode cw = .seed (lenField cw))

/-- The nine words of 95_test_vectors.md section 2.6 decode as its table says. -/
def Obligations.SampleWordsDecode : Prop :=
  decode 0x100000004#34 = .seed 4#32 ∧ decode 0x1FFFFFFFF#34 = .seed 4294967295#32 ∧
  decode 0x100000000#34 = .seed 0#32 ∧ decode 0x200000000#34 = .next ∧ decode 0x2FFFFFFFF#34 = .next ∧
  decode 0x300000000#34 = .release ∧ decode 0x3ABCDEF01#34 = .release ∧ decode 0x000000000#34 = .reserved ∧
  decode 0x0FFFFFFFF#34 = .reserved

/-- The LEN bits of NEXT, RELEASE and the reserved opcode have no effect at all (R38, R40). -/
def Obligations.IgnoredLenHasNoEffect : Prop :=
  ∀ (cw cw' : CommandWord), opField cw = opField cw' → opField cw ≠ 0b01#2 →
    ∀ s, exec (decode cw) s = exec (decode cw') s

/-- The response word: STATUS in bits 34..32 with the codes of R42, DATA in bits 31..0 (R41); no two responses share a
word. -/
def Obligations.ResponseWordFields : Prop :=
  (∀ r : Response, (responseWord r).extractLsb' 32 3 = statusCode r.status ∧
    (responseWord r).extractLsb' 0 32 = r.data) ∧
  (∀ r q : Response, responseWord r = responseWord q → r = q) ∧
  statusCode .ok = 0b000#3 ∧ statusCode .invalidSeed = 0b001#3 ∧ statusCode .invalidHandle = 0b010#3 ∧
  statusCode .illegalCommand = 0b011#3 ∧ statusCode .allocationFailure = 0b100#3 ∧ statusCode .doubleFree = 0b101#3

/-- The pseudo-instructions are other spellings of commands (R49). -/
def Obligations.PseudoInstructionsExpand : Prop :=
  (∀ words, assembleLine (.create words) = assembleLine (.seed words.length words)) ∧
  assembleLine .destroy = assembleLine .release ∧ assembleLine .nextU32 = assembleLine .next ∧
  (∀ n, assembleLine (.nextTimes n) = assemble (List.replicate n .next)) ∧
  assembleLine .nop = assembleLine (.word34 0)

/-- What the lines of core syntax become (R48): SEED, NEXT and RELEASE one command word each, `.word34` the word as given,
RESET the assertion of the reset input. Two things here are the model's choice, log 11, and not R48's. The key of a line
without a brace list is empty and answers no read. And the SEED clause, which holds for every length and list, says R48's
meaning of well-formed lines only (`AsmLine.wellFormed`: numbers below 2^32, as many words as the length says); for an
ill-formed line, which R48 gives no meaning, the model reduces each number modulo 2^32 and takes the list as it is. -/
def Obligations.CoreLinesBecomeEvents : Prop :=
  (∀ (len : Nat) (words : List Nat), assembleLine (.seed len words) =
    [.command (0b01#2 ++ BitVec.ofNat 32 len) (keyOfWords (words.map (BitVec.ofNat 32)))]) ∧
  assembleLine .next = [.command 0x200000000#34 ⟨[], 0⟩] ∧
  assembleLine .release = [.command 0x300000000#34 ⟨[], 0⟩] ∧
  (∀ value : Nat, value < 2 ^ 34 →
    ∃ cw : CommandWord, cw.toNat = value ∧ assembleLine (.word34 value) = [.command cw ⟨[], 0⟩]) ∧
  assembleLine .reset = [.reset]

/-- A well-formed SEED line becomes one command that decodes to SEED with the written length, and whose key reads as the
written words and answers every read (R48, R24, R107). The last clause, that the key is in canonical form, is about the
model's own way of writing keys down: the model's choice, log 5. -/
def Obligations.SeedLineMeansItsWords : Prop :=
  ∀ (len : Nat) (words : List Nat), (AsmLine.seed len words).wellFormed = true →
    ∃ cw key, assembleLine (.seed len words) = [.command cw key] ∧
      decode cw = .seed (BitVec.ofNat 32 len) ∧ (BitVec.ofNat 32 len).toNat = len ∧
      (∀ j, j < len → (keyRead key j).toNat = words.getD j 0) ∧
      eventDutiful (.command cw key) = true ∧ key.wf = true

/-- The key made of a list of words reads back as the list (R24, R48). -/
def Obligations.KeyOfWordsReadsBack : Prop :=
  ∀ (ws : List Word) (j : Nat), j < ws.length →
    keyRead (keyOfWords ws) j = ws.getD j 0#32 ∧ answersAll (keyOfWords ws) ws.length = true

/-! ### The step (00_scope.md R9, 20_memory.md R33, 70_reset_and_hazards.md R100 to R102) -/

/-- A step on a state whose host issues a command is `exec` of the decoded command, the command taken off the host's
events and its key presented (R9, R33, R35). -/
def Obligations.StepRunsDecodedCommand : Prop :=
  ∀ (s : State) (cw : CommandWord) (key : KeySpace) (rest : List HostEvent),
    s.host = .command cw key :: rest → step s = exec (decode cw) { s with key := key, host := rest }

/-- What the host places with `withFetchWord` is what the next step runs (log 4, log 9: the model's choice). -/
def Obligations.StepRunsTableWord : Prop :=
  ∀ (s : State) (nbits w : Nat) (i : Instr), decodeTableWord nbits w = some i →
    step (s.withFetchWord nbits w) = exec i { s with key := zeroKeyFor (tableWord nbits w) }

/-- Between commands the engine is idle and keeps its state (R98). -/
def Obligations.IdleKeepsState : Prop := ∀ s : State, s.host = [] → step s = .next s

/-- The reset input (R101, R46): `LIVE` becomes 0 and there is no response; afterwards NEXT answers InvalidHandle, RELEASE
is a no-op, and SEED with LEN >= 1 brings the engine to life. `MT` and `IDX` are not spoken of: they are unspecified. -/
def Obligations.ResetInputLeavesAbsent : Prop :=
  ∀ (s : State) (rest : List HostEvent), s.host = .reset :: rest →
    ∃ t, step s = .next t ∧ t.live = false ∧ t.host = rest ∧ t.key = s.key ∧
      t.responses = s.responses ∧ t.keyReads = s.keyReads ∧
      exec .next t = .next { t with responses := t.responses ++ [⟨.invalidHandle, 0#32⟩] } ∧
      exec .release t = .next { t with responses := t.responses ++ [⟨.ok, 0#32⟩] } ∧
      ∀ len : Word, len ≠ 0#32 → answersAll t.key len.toNat = true →
        ∃ u, exec (.seed len) t = .next u ∧ u.live = true

/-- The state after power-up: `LIVE = 0` (R22), so NEXT is refused. Nothing is said of `MT` and `IDX`. -/
def Obligations.PowerUpIsAbsent : Prop :=
  State.reset.live = false ∧
    exec .next State.reset =
      .next { State.reset with responses := State.reset.responses ++ [⟨.invalidHandle, 0#32⟩] }

/-! ### SEED (40_seed.md) -/

/-- SEED with LEN = 0 answers InvalidSeed and changes nothing else: no key word is read (R51). -/
def Obligations.EmptySeedRefused : Prop :=
  ∀ s : State, exec (.seed 0#32) s = .next { s with responses := s.responses ++ [⟨.invalidSeed, 0#32⟩] }

/-- SEED with LEN >= 1 and a host that answers: the four phases in order, live or absent, and OK with DATA 0
(R50, R57, R60). Everything else is unchanged. -/
def Obligations.SeedRunsFourPhases : Prop :=
  ∀ (len : Word) (s : State), len ≠ 0#32 → answersAll s.key len.toNat = true →
    exec (.seed len) s = .next
      { s with
        mt := writeMT (phaseC (phaseB s.key len.toNat (phaseA s.mt))).mt 0 0x80000000#32
        idx := 624
        live := true
        keyReads := s.keyReads ++ (phaseB s.key len.toNat (phaseA s.mt)).reads.reverse
        responses := s.responses ++ [⟨.ok, 0#32⟩] }

/-- A successful SEED leaves `MT[0] = 0x80000000`, so the array is not all zero, the batch exhausted and the engine live
(R57, R16 (b)). -/
def Obligations.SeededArrayIsNotZero : Prop :=
  ∀ (len : Word) (s : State), len ≠ 0#32 → answersAll s.key len.toNat = true →
    ∃ t, exec (.seed len) s = .next t ∧ readMT t.mt 0 = 0x80000000#32 ∧
      t.mt ≠ Vector.replicate 624 0#32 ∧ batchExhausted t = true ∧ t.live = true

/-- SEED with LEN >= 1 whose host leaves a read unanswered never completes: the model stops (R107; log 6). -/
def Obligations.SeedWaitsForSilentHost : Prop :=
  ∀ (len : Word) (s : State), len ≠ 0#32 → s.key.answered < len.toNat →
    exec (.seed len) s = .fault .keyNeverAnswered

/-- Phase A (R52): word 0, and each word from the one before it, whatever the array held. -/
def Obligations.PhaseAWords : Prop :=
  ∀ mt : StateArray, readMT (phaseA mt) 0 = 19650218#32 ∧
    ∀ i, 1 ≤ i → i ≤ 623 →
      readMT (phaseA mt) i =
        1812433253#32 * (readMT (phaseA mt) (i - 1) ^^^ (readMT (phaseA mt) (i - 1) >>> 30)) + BitVec.ofNat 32 i

/-- One iteration of phase B (R53) with both advances (R54, R55): the word written, the words kept, the copy of `MT[623]`
into `MT[0]`, and the cursors. -/
def Obligations.PhaseBIteration : Prop :=
  ∀ (key : KeySpace) (len : Nat) (c : SeedSweep), 1 ≤ c.i → c.i ≤ 623 →
    readMT (phaseBStep key len c).mt c.i =
      (readMT c.mt c.i ^^^ ((readMT c.mt (c.i - 1) ^^^ (readMT c.mt (c.i - 1) >>> 30)) * 1664525#32)) +
        keyRead key c.j + BitVec.ofNat 32 c.j ∧
    (∀ k, 1 ≤ k → k ≤ 623 → k ≠ c.i → readMT (phaseBStep key len c).mt k = readMT c.mt k) ∧
    readMT (phaseBStep key len c).mt 0 =
      (if c.i = 623 then readMT (phaseBStep key len c).mt 623 else readMT c.mt 0) ∧
    (phaseBStep key len c).i = (if c.i = 623 then 1 else c.i + 1) ∧
    (phaseBStep key len c).j = (if c.j + 1 = len then 0 else c.j + 1)

/-- After `n` iterations of phase B: `i = 1 + (n mod 623)`, `j = n mod LEN`, and the reads went through the indices
cyclically (R54, R55, R25). -/
def Obligations.PhaseBCursors : Prop :=
  ∀ (key : KeySpace) (len n : Nat) (mt : StateArray), 1 ≤ len →
    (repeatTimes n (phaseBStep key len) ⟨mt, 1, 0, []⟩).i = 1 + n % 623 ∧
    (repeatTimes n (phaseBStep key len) ⟨mt, 1, 0, []⟩).j = n % len ∧
    (repeatTimes n (phaseBStep key len) ⟨mt, 1, 0, []⟩).reads.reverse = (List.range n).map (· % len)

/-- Phase C starts where phase B left `i`, and ends with the same `i` (R58, R56). -/
def Obligations.CursorCarriesIntoPhaseC : Prop :=
  ∀ (key : KeySpace) (len : Nat) (mt : StateArray), 1 ≤ len →
    (phaseB key len mt).i = 1 + max 624 len % 623 ∧
    (phaseC (phaseB key len mt)).i = (phaseB key len mt).i ∧
    (len ≤ 624 → (phaseB key len mt).i = 2) ∧ (len = 625 → (phaseB key len mt).i = 3) ∧
    (len = 700 → (phaseB key len mt).i = 78) ∧ (len = 1246 → (phaseB key len mt).i = 1) ∧
    (len = 1247 → (phaseB key len mt).i = 2)

/-- Phase C (R56): each of `MT[1]` to `MT[623]` is rewritten once, from its old value and the word before it in the
cycle; `MT[0]` is the copy of the new `MT[623]`. -/
def Obligations.PhaseCWords : Prop :=
  ∀ c : SeedSweep, 1 ≤ c.i → c.i ≤ 623 →
    (∀ k, 1 ≤ k → k ≤ 623 →
      ∃ p : Word,
        p = (if k = c.i then readMT c.mt (c.i - 1)
          else if k = 1 then readMT (phaseC c).mt 623 else readMT (phaseC c).mt (k - 1)) ∧
        readMT (phaseC c).mt k = (readMT c.mt k ^^^ ((p ^^^ (p >>> 30)) * 1566083941#32)) - BitVec.ofNat 32 k) ∧
    readMT (phaseC c).mt 0 = readMT (phaseC c).mt 623 ∧ (phaseC c).i = c.i

/-- The reads of a successful SEED (R25): `max(624, LEN)` of them, read `n` at index `n mod LEN`, none at or beyond LEN;
with LEN <= 624 index `j` is read `floor(624 / LEN)` times and once more if `j < 624 mod LEN`; with LEN > 624 each index
once, ascending. -/
def Obligations.SeedReadsKeyInOrder : Prop :=
  ∀ (len : Word) (s : State), len ≠ 0#32 → answersAll s.key len.toNat = true →
    ∃ t reads, exec (.seed len) s = .next t ∧ t.keyReads = s.keyReads ++ reads ∧
      reads = (List.range (max 624 len.toNat)).map (· % len.toNat) ∧
      (∀ j ∈ reads, j < len.toNat) ∧
      (len.toNat ≤ 624 → ∀ j, j < len.toNat →
        reads.count j = 624 / len.toNat + if j < 624 % len.toNat then 1 else 0) ∧
      (624 < len.toNat → reads = List.range len.toNat)

/-- The state after a successful SEED is a function of LEN and the key words below LEN alone: not of `MT`, `IDX` or
`LIVE` before it, nor of any other key word (R59, R62, R60). -/
def Obligations.SeedForgetsPriorState : Prop :=
  ∀ (len : Word) (s s' : State), len ≠ 0#32 →
    answersAll s.key len.toNat = true → answersAll s'.key len.toNat = true →
    (∀ j, j < len.toNat → keyRead s.key j = keyRead s'.key j) →
    ∃ t t', exec (.seed len) s = .next t ∧ exec (.seed len) s' = .next t' ∧
      t.mt = t'.mt ∧ t.idx = t'.idx ∧ t.live = t'.live

/-- Two generators seeded with the same key hold the same state and answer every later sequence of commands alike,
whatever they were before (R59, and property 8.1 of 95_test_vectors.md section 1.2). -/
def Obligations.SameSeedSameResponses : Prop :=
  ∀ (len : Word) (is : List Instr) (s s' t : State), len ≠ 0#32 → s.key = s'.key →
    runCommands (.seed len :: is) s = .next t →
    ∃ u u' t', exec (.seed len) s = .next u ∧ exec (.seed len) s' = .next u' ∧
      u.mt = u'.mt ∧ u.idx = u'.idx ∧ u.live = u'.live ∧
      runCommands (.seed len :: is) s' = .next t' ∧
      t'.responses.drop s'.responses.length = t.responses.drop s.responses.length

/-- The list form of the seeding gives the seeded array, for every LEN >= 1, short of 624, above it or at it
(R50, R53, R54, R56). -/
def Obligations.SeedListAgrees : Prop :=
  ∀ (len : Word) (s : State), len ≠ 0#32 → answersAll s.key len.toNat = true →
    ∃ t, exec (.seed len) s = .next t ∧ t.mt.toList = seedList s.key len.toNat

/-! ### The twist (41_twist.md) -/

/-- The twist mix bit by bit (R65): bit 31 of `u` and bits 30..0 of `v` alone matter; the low bit of `v` selects MAG. -/
def Obligations.MixBits : Prop :=
  ∀ u v : Word, mix u v =
    (0#1 ++ u.extractLsb' 31 1 ++ v.extractLsb' 1 30 : BitVec 32) ^^^
      (if v.getLsbD 0 = true then 0x9908B0DF#32 else 0#32)

/-- The table form of the mix (R66). -/
def Obligations.MixTableForm : Prop :=
  mag01 false = 0#32 ∧ mag01 true = 0x9908B0DF#32 ∧ ∀ u v : Word, mixByTable u v = mix u v

/-- The words after a twist, in its three ranges of operands, old and new (R67, R68). -/
def Obligations.TwistWords : Prop :=
  ∀ mt : StateArray,
    (∀ k, k ≤ 226 →
      readMT (twist mt) k = readMT mt (k + 397) ^^^ mix (readMT mt k) (readMT mt (k + 1))) ∧
    (∀ k, 227 ≤ k → k ≤ 622 →
      readMT (twist mt) k = readMT (twist mt) (k - 227) ^^^ mix (readMT mt k) (readMT mt (k + 1))) ∧
    readMT (twist mt) 623 = readMT (twist mt) 396 ^^^ mix (readMT mt 623) (readMT (twist mt) 0)

/-- The three-range form of the pass gives the same array as the direct formulation (R69). -/
def Obligations.ThreeRangeFormAgrees : Prop := ∀ mt : StateArray, twist3Range mt = twist mt

/-- The list form of the twist gives the words of the twisted array (R68). -/
def Obligations.TwistListAgrees : Prop := ∀ mt : StateArray, (twist mt).toList = twistList mt.toList

/-- "an all-zero state is a degenerate fixed point of the recurrence" (R16). -/
def Obligations.AllZeroIsFixedByTwist : Prop :=
  ∀ mt : StateArray, (∀ n, n < 624 → readMT mt n = 0#32) → twist mt = mt

/-! ### NEXT and the temper (42_draw_temper.md) -/

/-- The four steps of the temper, each on the result of the one before (R75). -/
def Obligations.TemperSteps : Prop :=
  ∀ y0 y1 y2 y3 y4 : Word,
    y1 = y0 ^^^ (y0 >>> 11) → y2 = y1 ^^^ ((y1 <<< 7) &&& 0x9D2C5680#32) →
    y3 = y2 ^^^ ((y2 <<< 15) &&& 0xEFC60000#32) → y4 = y3 ^^^ (y3 >>> 18) → temper y0 = y4

/-- The temper is a bijection on 32-bit words (R75 says so from general knowledge; no rule relies on it). -/
def Obligations.TemperIsBijective : Prop := Function.Bijective temper

/-- NEXT (R74, R70, R80): refused on an absent engine with nothing changed; on a live one, with the batch fresh it draws
`MT[IDX]` and adds 1 to `IDX`, the array unchanged; with the batch exhausted it twists, draws word 0 and leaves `IDX = 1`.
Nothing else changes. -/
def Obligations.NextDrawsTemperedWord : Prop :=
  (∀ s : State, s.live = false →
    exec .next s = .next { s with responses := s.responses ++ [⟨.invalidHandle, 0#32⟩] }) ∧
  ∀ s : State, s.live = true →
    ∃ t, exec .next s = .next t ∧ t.live = true ∧ t.key = s.key ∧ t.host = s.host ∧
      t.keyReads = s.keyReads ∧ t.freeCount = s.freeCount ∧
      (s.idx.val < 624 → t.mt = s.mt ∧ t.idx.val = s.idx.val + 1 ∧
        t.responses = s.responses ++ [⟨.ok, temper (readMT s.mt s.idx.val)⟩]) ∧
      (s.idx.val = 624 → t.mt = twist s.mt ∧ t.idx.val = 1 ∧
        t.responses = s.responses ++ [⟨.ok, temper (readMT (twist s.mt) 0)⟩])

/-- The stream law (R79). After a successful SEED, let `x` begin with the seeded array and go on by the recurrence; then
the draws return the tempered words of `x` from 624 on, in order, and refused commands between them do not disturb it. -/
def Obligations.DrawsFollowTheRecurrence : Prop :=
  ∀ (len : Word) (s0 : State) (is : List Instr), len ≠ 0#32 → answersAll s0.key len.toNat = true →
    is.all drawOrRefused = true →
    ∃ s t, exec (.seed len) s0 = .next s ∧ runCommands is s = .next t ∧
      ∀ x : Nat → Word, (∀ n, n < 624 → x n = readMT s.mt n) →
        (∀ n, x (n + 624) = x (n + 397) ^^^ mix (x n) (x (n + 1))) →
        okData (t.responses.drop s.responses.length) =
          (List.range (is.count .next)).map fun e => temper (x (624 + e))

/-- The counting law (R71), from a live engine with its batch exhausted, as SEED leaves it: after `d` draws, among refused
commands, `ceil(d / 624)` twists have run, `IDX = ((d - 1) mod 624) + 1`, and the next draw twists iff
`(d + 1) mod 624 = 1`. -/
def Obligations.TwistsAreCounted : Prop :=
  ∀ (s : State) (is : List Instr), s.live = true → s.idx.val = 624 → is.all drawOrRefused = true →
    ∃ t, runCommands is s = .next t ∧ t.live = true ∧
      t.idx.val = (if is.count .next = 0 then 624 else (is.count .next - 1) % 624 + 1) ∧
      t.mt = twist^[(is.count .next + 623) / 624] s.mt ∧
      (batchExhausted t = true ↔ (is.count .next + 1) % 624 = 1)

/-! ### RELEASE and the reserved opcode (43_lifecycle.md, 30_encoding.md R40) -/

/-- RELEASE on a live engine: `LIVE` becomes 0, OK with DATA 0; the ports are untouched. `MT` and `IDX` become
unspecified, so nothing is said of them (R82). -/
def Obligations.ReleaseEndsTheGenerator : Prop :=
  ∀ s : State, s.live = true →
    ∃ t, exec .release s = .next t ∧ t.live = false ∧ t.responses = s.responses ++ [⟨.ok, 0#32⟩] ∧
      t.key = s.key ∧ t.host = s.host ∧ t.keyReads = s.keyReads ∧
      exec .next t = .next { t with responses := t.responses ++ [⟨.invalidHandle, 0#32⟩] }

/-- RELEASE on an absent engine is a no-op that answers OK with DATA 0 (R83). -/
def Obligations.ReleaseOfAbsentIsNoOp : Prop :=
  ∀ s : State, s.live = false →
    exec .release s = .next { s with responses := s.responses ++ [⟨.ok, 0#32⟩] }

/-- Every command word with OP = 00 is the reserved command, which changes no state and answers IllegalCommand with
DATA 0, whatever `LIVE` (R40, R91). -/
def Obligations.ReservedChangesNothing : Prop :=
  (∀ cw : CommandWord, opField cw = 0b00#2 → decode cw = .reserved) ∧
  ∀ s : State, exec .reserved s = .next { s with responses := s.responses ++ [⟨.illegalCommand, 0#32⟩] }

/-- The lifecycle table (R81): `LIVE` after a command, by the command and `LIVE` before it. -/
def Obligations.LifecycleTable : Prop :=
  ∀ (i : Instr) (s t : State), exec i s = .next t →
    t.live = match i with
      | .seed len => if len = 0#32 then s.live else true
      | .next => s.live
      | .release => false
      | .reserved => s.live

/-! ### Errors, responses, frames (60_exceptions.md, 30_encoding.md) -/

/-- Every command that completes gives exactly one response, with the status its own test decides and DATA 0 unless it is
a draw; AllocationFailure and DoubleFree are never produced (R41, R42, R43, R88, R92, R94). -/
def Obligations.ResponseTable : Prop :=
  ∀ (i : Instr) (s t : State), exec i s = .next t →
    ∃ r, t.responses = s.responses ++ [r] ∧
      (r.status = match i with
        | .seed len => if len = 0#32 then .invalidSeed else .ok
        | .next => if s.live = true then .ok else .invalidHandle
        | .release => .ok
        | .reserved => .illegalCommand) ∧
      (r.data = match i with
        | .seed _ => 0#32
        | .next => if s.live = true then temper (rawWord (schedule s)) else 0#32
        | .release => 0#32
        | .reserved => 0#32) ∧
      r.status ≠ .allocationFailure ∧ r.status ≠ .doubleFree

/-- An error response carries DATA 0 and leaves the whole state as it was; no key word is read (R87). -/
def Obligations.ErrorsChangeNothing : Prop :=
  ∀ (i : Instr) (s t : State) (r : Response), exec i s = .next t →
    t.responses = s.responses ++ [r] → r.status ≠ .ok →
    r.data = 0#32 ∧ t = { s with responses := s.responses ++ [r] }

/-- The frame of every command that completes (R12, R35): the key space and the host's events are unchanged, every key
index reads as before, and each command writes only what its rule names. -/
def Obligations.CommandFrames : Prop :=
  ∀ (i : Instr) (s t : State), exec i s = .next t →
    t.key = s.key ∧ t.host = s.host ∧ (∀ j, keyRead t.key j = keyRead s.key j) ∧
    match i with
    | .seed len => t.freeCount = s.freeCount ∧
        (len = 0#32 → t.mt = s.mt ∧ t.idx = s.idx ∧ t.live = s.live ∧ t.keyReads = s.keyReads)
    | .next => t.keyReads = s.keyReads ∧ t.freeCount = s.freeCount ∧ t.live = s.live ∧
        (s.live = false → t.idx = s.idx) ∧ (s.live = false ∨ s.idx.val ≠ 624 → t.mt = s.mt)
    | .release => t.keyReads = s.keyReads ∧
        (s.live = false → t.mt = s.mt ∧ t.idx = s.idx ∧ t.live = s.live ∧ t.freeCount = s.freeCount)
    | .reserved => t.mt = s.mt ∧ t.idx = s.idx ∧ t.live = s.live ∧ t.keyReads = s.keyReads ∧ t.freeCount = s.freeCount

/-- No command is refused by the model, and the one fault is that of a SEED whose host does not answer
(R78, R88, R107; log 6). -/
def Obligations.OnlySilentHostStops : Prop :=
  ∀ (i : Instr) (s : State),
    (∀ r, exec i s ≠ .refused r) ∧
    (∀ f, exec i s = .fault f ↔
      f = .keyNeverAnswered ∧ ∃ len : Word, i = .seed len ∧ len ≠ 0#32 ∧ s.key.answered < len.toNat)

/-! ### The whole machine -/

/-- The invariant holds after power-up. Its clause on `IDX` is R16 (a), empty here since `LIVE = 0` (R22). Its clauses on
the canonical form of the key and of the host's events are the model's choice, log 5, and that nothing is presented and
nothing issued at power-up is the model's choice, log 5 and log 4. -/
def Obligations.InvHoldsAtReset : Prop := Inv State.reset

/-- Every step keeps the invariant: while live `1 <= IDX <= 624` (R16 (a)), and every key in canonical form, which is the
model's choice, log 5. -/
def Obligations.StepKeepsInv : Prop :=
  ∀ s t : State, Inv s → step s = .next t → Inv t

/-- With a host that answers key reads a run never stops: it takes up one event a step, and every command has exactly one
response (R41, R45, R111, R112). -/
def Obligations.AnsweredRunsNeverStop : Prop :=
  ∀ (n : Nat) (s : State), HostDutiful s →
    ∃ t : State, runSteps n s = .next t ∧ t.host = s.host.drop n ∧
      t.responses.length = s.responses.length + (s.host.take n).countP isCommand

/-- The unspecified contents of `MT` and `IDX` while `LIVE = 0` never reach a port: two states that differ in them alone
run alike for ever (R22, R112). -/
def Obligations.AbsentContentsNeverSeen : Prop :=
  ∀ (n : Nat) (s s' : State), SameView s s' →
    outcomesAgree (runSteps n s) (runSteps n s')

/-- Any interleaving of the steps of several instances gives each the result of running alone (R99): instance `n` is where
its own steps lead it, and, if its host answers key reads, that is the state its run alone reaches, whatever the other
instances do or wait for. That a system is a list of states, and that an instance whose step stops stays where it is, is
the model's choice, log 13. -/
def Obligations.InstancesAreIndependent : Prop :=
  (∀ (sched : List Nat) (sys : System) (n : Nat),
    (runInterleaved sched sys)[n]? = sys[n]?.map (stepInstance^[sched.count n])) ∧
  ∀ (sched : List Nat) (sys : System) (n : Nat) (s : State), sys[n]? = some s → HostDutiful s →
    ∃ t, runSteps (sched.count n) s = .next t ∧ (runInterleaved sched sys)[n]? = some t
end

