-- ==== Sys2Proof/Laws/State.lean ====
section
/-! SUPPORT. One lemma per field per update of State, so that no later proof unfolds a record update. -/

namespace Sys2Proof.Machine

variable (s : State) (mt : StateArray) (cw : CommandWord) (key : KeySpace)

@[simp] theorem goLive_live : (goLive s).live = true := rfl
@[simp] theorem goLive_mt : (goLive s).mt = s.mt := rfl
@[simp] theorem goLive_idx : (goLive s).idx = s.idx := rfl
@[simp] theorem goLive_key : (goLive s).key = s.key := rfl
@[simp] theorem goLive_host : (goLive s).host = s.host := rfl
@[simp] theorem goLive_responses : (goLive s).responses = s.responses := rfl
@[simp] theorem goLive_keyReads : (goLive s).keyReads = s.keyReads := rfl
@[simp] theorem goLive_freeCount : (goLive s).freeCount = s.freeCount := rfl

@[simp] theorem goAbsent_live : (goAbsent s).live = false := rfl
@[simp] theorem goAbsent_mt : (goAbsent s).mt = s.mt := rfl
@[simp] theorem goAbsent_idx : (goAbsent s).idx = s.idx := rfl
@[simp] theorem goAbsent_key : (goAbsent s).key = s.key := rfl
@[simp] theorem goAbsent_host : (goAbsent s).host = s.host := rfl
@[simp] theorem goAbsent_responses : (goAbsent s).responses = s.responses := rfl
@[simp] theorem goAbsent_keyReads : (goAbsent s).keyReads = s.keyReads := rfl
@[simp] theorem goAbsent_freeCount : (goAbsent s).freeCount = s.freeCount := rfl

/-! `loseContents` has no lemma for `mt` and `idx`: they hold free values. -/
@[simp] theorem loseContents_live : (loseContents s).live = s.live := rfl
@[simp] theorem loseContents_key : (loseContents s).key = s.key := rfl
@[simp] theorem loseContents_host : (loseContents s).host = s.host := rfl
@[simp] theorem loseContents_responses : (loseContents s).responses = s.responses := rfl
@[simp] theorem loseContents_keyReads : (loseContents s).keyReads = s.keyReads := rfl
@[simp] theorem loseContents_freeCount : (loseContents s).freeCount = s.freeCount + 1 := rfl

@[simp] theorem resetEngine_live : (resetEngine s).live = false := rfl
@[simp] theorem resetEngine_key : (resetEngine s).key = s.key := rfl
@[simp] theorem resetEngine_host : (resetEngine s).host = s.host := rfl
@[simp] theorem resetEngine_responses : (resetEngine s).responses = s.responses := rfl
@[simp] theorem resetEngine_keyReads : (resetEngine s).keyReads = s.keyReads := rfl

@[simp] theorem twistEngine_mt : (twistEngine s).mt = twist s.mt := rfl
@[simp] theorem twistEngine_idx : (twistEngine s).idx = 0 := rfl
@[simp] theorem twistEngine_live : (twistEngine s).live = s.live := rfl
@[simp] theorem twistEngine_key : (twistEngine s).key = s.key := rfl
@[simp] theorem twistEngine_host : (twistEngine s).host = s.host := rfl
@[simp] theorem twistEngine_responses : (twistEngine s).responses = s.responses := rfl
@[simp] theorem twistEngine_keyReads : (twistEngine s).keyReads = s.keyReads := rfl
@[simp] theorem twistEngine_freeCount : (twistEngine s).freeCount = s.freeCount := rfl

@[simp] theorem advanceIdx_mt : (advanceIdx s).mt = s.mt := rfl
@[simp] theorem advanceIdx_idx_val : (advanceIdx s).idx.val = (s.idx.val + 1) % 625 := rfl
@[simp] theorem advanceIdx_live : (advanceIdx s).live = s.live := rfl
@[simp] theorem advanceIdx_key : (advanceIdx s).key = s.key := rfl
@[simp] theorem advanceIdx_host : (advanceIdx s).host = s.host := rfl
@[simp] theorem advanceIdx_responses : (advanceIdx s).responses = s.responses := rfl
@[simp] theorem advanceIdx_keyReads : (advanceIdx s).keyReads = s.keyReads := rfl
@[simp] theorem advanceIdx_freeCount : (advanceIdx s).freeCount = s.freeCount := rfl

@[simp] theorem phaseD_mt : (phaseD mt s).mt = writeMT mt 0 Config.final0 := rfl
@[simp] theorem phaseD_idx : (phaseD mt s).idx = 624 := rfl
@[simp] theorem phaseD_live : (phaseD mt s).live = true := rfl
@[simp] theorem phaseD_key : (phaseD mt s).key = s.key := rfl
@[simp] theorem phaseD_host : (phaseD mt s).host = s.host := rfl
@[simp] theorem phaseD_responses : (phaseD mt s).responses = s.responses := rfl
@[simp] theorem phaseD_keyReads : (phaseD mt s).keyReads = s.keyReads := rfl
@[simp] theorem phaseD_freeCount : (phaseD mt s).freeCount = s.freeCount := rfl

@[simp] theorem seedState_mt (len : Nat) :
    (seedState len s).mt = writeMT (phaseC (phaseB s.key len (phaseA s.mt))).mt 0 Config.final0 := rfl
@[simp] theorem seedState_idx (len : Nat) : (seedState len s).idx = 624 := rfl
@[simp] theorem seedState_live (len : Nat) : (seedState len s).live = true := rfl
@[simp] theorem seedState_key (len : Nat) : (seedState len s).key = s.key := rfl
@[simp] theorem seedState_host (len : Nat) : (seedState len s).host = s.host := rfl
@[simp] theorem seedState_responses (len : Nat) : (seedState len s).responses = s.responses := rfl
@[simp] theorem seedState_keyReads (len : Nat) :
    (seedState len s).keyReads = s.keyReads ++ (phaseB s.key len (phaseA s.mt)).reads.reverse := rfl
@[simp] theorem seedState_freeCount (len : Nat) : (seedState len s).freeCount = s.freeCount := rfl

@[simp] theorem presentCommand_mt : (presentCommand cw key s).mt = s.mt := rfl
@[simp] theorem presentCommand_idx : (presentCommand cw key s).idx = s.idx := rfl
@[simp] theorem presentCommand_live : (presentCommand cw key s).live = s.live := rfl
@[simp] theorem presentCommand_key : (presentCommand cw key s).key = s.key := rfl
@[simp] theorem presentCommand_host : (presentCommand cw key s).host = .command cw key :: s.host := rfl
@[simp] theorem presentCommand_responses : (presentCommand cw key s).responses = s.responses := rfl
@[simp] theorem presentCommand_keyReads : (presentCommand cw key s).keyReads = s.keyReads := rfl
@[simp] theorem presentCommand_freeCount : (presentCommand cw key s).freeCount = s.freeCount := rfl

end Sys2Proof.Machine
end

