-- ==== Sys2Proof/Laws/Ops.lean ====
section
/-! SUPPORT. What the shared operations do, said once: words of the array, the loops, responses, the scheduler. -/

namespace Sys2Proof.Machine

/-! ### Words of the state array -/

theorem readMT_writeMT (mt : StateArray) (n m : Nat) (v : Word) :
    readMT (writeMT mt n v) m = if n % 624 = m % 624 then v else readMT mt m := by
  unfold readMT writeMT
  rw [Vector.getElem_set]

@[simp] theorem readMT_writeMT_self (mt : StateArray) (n : Nat) (v : Word) :
    readMT (writeMT mt n v) n = v := by
  simp [readMT_writeMT]

theorem readMT_writeMT_ne (mt : StateArray) {n m : Nat} (v : Word) (h : n % 624 ≠ m % 624) :
    readMT (writeMT mt n v) m = readMT mt m := by
  simp [readMT_writeMT, h]

theorem readMT_mod (mt : StateArray) (n : Nat) : readMT mt (n % 624) = readMT mt n := by
  unfold readMT
  simp only [Nat.mod_mod]

theorem readMT_of_lt (mt : StateArray) {n : Nat} (h : n < 624) : readMT mt n = mt[n] := by
  unfold readMT
  simp only [Nat.mod_eq_of_lt h]

/-- Two arrays that read the same at every index are equal. -/
theorem stateArray_ext {a b : StateArray} (h : ∀ n < 624, readMT a n = readMT b n) : a = b := by
  refine Vector.ext fun n hn => ?_
  rw [← readMT_of_lt a hn, ← readMT_of_lt b hn]
  exact h n hn

/-! ### Loops -/

@[simp] theorem repeatTimes_zero {σ : Type} (f : σ → σ) (s : σ) : repeatTimes 0 f s = s := by
  simp only [repeatTimes]

theorem repeatTimes_succ {σ : Type} (n : Nat) (f : σ → σ) (s : σ) :
    repeatTimes (n + 1) f s = f (repeatTimes n f s) := by
  induction n generalizing s with
  | zero => simp only [repeatTimes]
  | succ n ih =>
    have h := ih (f s)
    simp only [repeatTimes] at h ⊢
    exact h

/-- A property that holds before `repeat` and that each run takes from `k` runs to `k + 1` holds after `n` runs. -/
theorem repeatTimes_induct {σ : Type} {f : σ → σ} {s : σ} (P : Nat → σ → Prop) (h0 : P 0 s)
    (hstep : ∀ k t, P k t → P (k + 1) (f t)) (n : Nat) : P n (repeatTimes n f s) := by
  induction n with
  | zero => simpa using h0
  | succ n ih => rw [repeatTimes_succ]; exact hstep n _ ih

@[simp] theorem forRange_zero {σ : Type} (lo : Nat) (f : Nat → σ → σ) (s : σ) : forRange lo 0 f s = s := by
  simp only [forRange]

theorem forRange_succ {σ : Type} (lo n : Nat) (f : Nat → σ → σ) (s : σ) :
    forRange lo (n + 1) f s = f (lo + n) (forRange lo n f s) := by
  induction n generalizing lo s with
  | zero => simp only [forRange, Nat.add_zero]
  | succ n ih =>
    have h := ih (lo + 1) (f lo s)
    rw [show lo + 1 + n = lo + (n + 1) by omega] at h
    simp only [forRange] at h ⊢
    exact h

theorem forRange_append {σ : Type} (lo m n : Nat) (f : Nat → σ → σ) (s : σ) :
    forRange lo (m + n) f s = forRange (lo + m) n f (forRange lo m f s) := by
  induction n with
  | zero => simp
  | succ n ih =>
    rw [← Nat.add_assoc, forRange_succ, forRange_succ, ih, Nat.add_assoc lo m n]

/-- A property of the loop that holds before it and that each run takes from `k` runs to `k + 1` holds after `n` runs. -/
theorem forRange_induct {σ : Type} {lo : Nat} {f : Nat → σ → σ} {s : σ} (P : Nat → σ → Prop) (h0 : P 0 s) (n : Nat)
    (hstep : ∀ k t, k < n → P k t → P (k + 1) (f (lo + k) t)) : P n (forRange lo n f s) := by
  induction n with
  | zero => simpa using h0
  | succ n ih =>
    rw [forRange_succ]
    exact hstep n _ (Nat.lt_succ_self n) (ih fun k t hk => hstep k t (Nat.lt_succ_of_lt hk))

/-! ### Responses -/

/-- Everything a response does: it adds itself to the responses and leaves the rest (R41). -/
theorem respond_next {st : Status} {data : Word} {s t : State} :
    respond st data s = .next t ↔ t = { s with responses := s.responses ++ [⟨st, data⟩] } := by
  unfold respond
  constructor
  · intro h; injection h with h; exact h.symm
  · intro h; rw [h]

/-- Everything an error does (R87). -/
theorem raise_next {e : Status} {s t : State} :
    raise e s = .next t ↔ t = { s with responses := s.responses ++ [⟨e, 0#32⟩] } :=
  respond_next

/-! ### The scheduler and the draw -/

theorem batchExhausted_iff (s : State) : batchExhausted s = true ↔ s.idx.val = 624 := by
  simp [batchExhausted]

theorem schedule_exhausted {s : State} (h : s.idx.val = 624) : schedule s = twistEngine s := by
  simp [schedule, (batchExhausted_iff s).2 h]

theorem schedule_fresh {s : State} (h : s.idx.val ≠ 624) : schedule s = s := by
  have : batchExhausted s = false := by simpa [batchExhausted] using h
  simp [schedule, this]

@[simp] theorem schedule_live (s : State) : (schedule s).live = s.live := by
  unfold schedule; split <;> rfl
@[simp] theorem schedule_key (s : State) : (schedule s).key = s.key := by
  unfold schedule; split <;> rfl
@[simp] theorem schedule_host (s : State) : (schedule s).host = s.host := by
  unfold schedule; split <;> rfl
@[simp] theorem schedule_responses (s : State) : (schedule s).responses = s.responses := by
  unfold schedule; split <;> rfl
@[simp] theorem schedule_keyReads (s : State) : (schedule s).keyReads = s.keyReads := by
  unfold schedule; split <;> rfl
@[simp] theorem schedule_freeCount (s : State) : (schedule s).freeCount = s.freeCount := by
  unfold schedule; split <;> rfl

/-- After the scheduler the cursor names a word: 0..623 (R31, R74). -/
theorem schedule_idx_lt (s : State) : (schedule s).idx.val < 624 := by
  by_cases h : s.idx.val = 624
  · rw [schedule_exhausted h]; exact Nat.succ_pos 623
  · rw [schedule_fresh h]; have := s.idx.isLt; omega

/-- The draw's advance after the scheduler never wraps (R74; log 14). -/
theorem advanceIdx_schedule_idx (s : State) :
    (advanceIdx (schedule s)).idx.val = (schedule s).idx.val + 1 := by
  have := schedule_idx_lt s
  rw [advanceIdx_idx_val, Nat.mod_eq_of_lt (by omega)]

/-! ### The seeding cursors -/

theorem advanceI_of_last {c : SeedSweep} (h : c.i = 623) :
    advanceI c = { c with mt := writeMT c.mt 0 (readMT c.mt 623), i := 1 } := by
  simp [advanceI, h]

theorem advanceI_of_lt {c : SeedSweep} (h : c.i ≠ 623) : advanceI c = { c with i := c.i + 1 } := by
  have : ¬ c.i + 1 = 624 := by omega
  simp [advanceI, this]

@[simp] theorem advanceI_j (c : SeedSweep) : (advanceI c).j = c.j := by
  unfold advanceI; split <;> rfl
@[simp] theorem advanceI_reads (c : SeedSweep) : (advanceI c).reads = c.reads := by
  unfold advanceI; split <;> rfl
theorem advanceI_i (c : SeedSweep) : (advanceI c).i = if c.i + 1 = 624 then 1 else c.i + 1 := by
  unfold advanceI; split <;> rfl
@[simp] theorem advanceJ_mt (len : Nat) (c : SeedSweep) : (advanceJ len c).mt = c.mt := rfl
@[simp] theorem advanceJ_i (len : Nat) (c : SeedSweep) : (advanceJ len c).i = c.i := rfl
@[simp] theorem advanceJ_reads (len : Nat) (c : SeedSweep) : (advanceJ len c).reads = c.reads := rfl
theorem advanceJ_j (len : Nat) (c : SeedSweep) : (advanceJ len c).j = if c.j + 1 = len then 0 else c.j + 1 := rfl
@[simp] theorem mixKeyWord_i (key : KeySpace) (c : SeedSweep) : (mixKeyWord key c).i = c.i := rfl
@[simp] theorem mixKeyWord_j (key : KeySpace) (c : SeedSweep) : (mixKeyWord key c).j = c.j := rfl
@[simp] theorem mixKeyWord_reads (key : KeySpace) (c : SeedSweep) : (mixKeyWord key c).reads = c.j :: c.reads := rfl
@[simp] theorem decorrelateWord_i (c : SeedSweep) : (decorrelateWord c).i = c.i := rfl
@[simp] theorem decorrelateWord_j (c : SeedSweep) : (decorrelateWord c).j = c.j := rfl
@[simp] theorem decorrelateWord_reads (c : SeedSweep) : (decorrelateWord c).reads = c.reads := rfl

end Sys2Proof.Machine
end

