-- ==== Sys2Proof/Laws/Exec.lean ====
section
/-! SUPPORT. What each command and a step can do, said once: the outcomes and their cases. -/

namespace Sys2Proof.Machine

/-! ### The arms of `exec` -/

theorem exec_seed (len : Word) (s : State) : exec (.seed len) s = execSeed len s := rfl
theorem exec_next (s : State) : exec .next s = execNext s := rfl
theorem exec_release (s : State) : exec .release s = execRelease s := rfl
theorem exec_reserved (s : State) : exec .reserved s = execReserved s := rfl

/-! ### The outcomes of each command -/

/-- The three outcomes of SEED (R50, R51, R107). -/
theorem execSeed_cases (len : Word) (s : State) :
    (len = 0#32 ∧ execSeed len s = raise .invalidSeed s) ∨
    (len ≠ 0#32 ∧ answersAll s.key len.toNat = true ∧ execSeed len s = respond .ok 0#32 (seedState len.toNat s)) ∨
    (len ≠ 0#32 ∧ answersAll s.key len.toNat = false ∧ execSeed len s = .fault .keyNeverAnswered) := by
  unfold execSeed
  by_cases h : len = 0#32
  · exact .inl ⟨h, if_pos h⟩
  · rw [if_neg h]
    cases hk : answersAll s.key len.toNat
    · exact .inr (.inr ⟨h, rfl, rfl⟩)
    · exact .inr (.inl ⟨h, rfl, rfl⟩)

/-- The two outcomes of NEXT (R74, R80). -/
theorem execNext_cases (s : State) :
    (s.live = true ∧ execNext s = respond .ok (temper (rawWord (schedule s))) (advanceIdx (schedule s))) ∨
    (s.live = false ∧ execNext s = raise .invalidHandle s) := by
  unfold execNext
  cases h : s.live
  · exact .inr ⟨rfl, rfl⟩
  · exact .inl ⟨rfl, rfl⟩

/-- The two outcomes of RELEASE (R82, R83). -/
theorem execRelease_cases (s : State) :
    (s.live = true ∧ execRelease s = respond .ok 0#32 (loseContents (goAbsent s))) ∨
    (s.live = false ∧ execRelease s = respond .ok 0#32 s) := by
  unfold execRelease
  cases h : s.live
  · exact .inr ⟨rfl, rfl⟩
  · exact .inl ⟨rfl, rfl⟩

/-! ### The step and the run -/

/-- What stands at the inputs, by the host's next event. -/
theorem takeEvent_cases (s : State) :
    (s.host = [] ∧ takeEvent s = .idle) ∨
    (∃ rest, s.host = .reset :: rest ∧ takeEvent s = .resetInput { s with host := rest }) ∨
    (∃ cw key rest, s.host = .command cw key :: rest ∧
      takeEvent s = .accepted cw { s with key := key, host := rest }) := by
  unfold takeEvent
  match h : s.host with
  | [] => exact .inl ⟨rfl, rfl⟩
  | .reset :: rest => exact .inr (.inl ⟨rest, rfl, rfl⟩)
  | .command cw key :: rest => exact .inr (.inr ⟨cw, key, rest, rfl, rfl⟩)

/-- Everything a step can do: nothing, the reset input, or one command (R9, R33, R102). -/
theorem step_cases (s : State) :
    (s.host = [] ∧ step s = .next s) ∨
    (∃ rest, s.host = .reset :: rest ∧ step s = .next (resetEngine { s with host := rest })) ∨
    (∃ cw key rest, s.host = .command cw key :: rest ∧
      step s = exec (decode cw) { s with key := key, host := rest }) := by
  unfold step
  obtain ⟨h, e⟩ | ⟨rest, h, e⟩ | ⟨cw, key, rest, h, e⟩ := takeEvent_cases s
  · exact .inl ⟨h, by rw [e]⟩
  · exact .inr (.inl ⟨rest, h, by rw [e]⟩)
  · exact .inr (.inr ⟨cw, key, rest, h, by rw [e]⟩)

theorem runSteps_zero (s : State) : runSteps 0 s = .next s := rfl

/-- A run goes on from the state its first step leaves. -/
theorem runSteps_of_next {n : Nat} {s t : State} (h : step s = .next t) : runSteps (n + 1) s = runSteps n t := by
  simp only [runSteps, h]

/-- A run stops where its first step stops. -/
theorem runSteps_of_fault {n : Nat} {s : State} {f : Fault} (h : step s = .fault f) :
    runSteps (n + 1) s = .fault f := by
  simp only [runSteps, h]

/-- One step of the host's run, of any machine. -/
theorem run_succ_eq (M : Host.Core) (n : Nat) (s : M.State) :
    M.run (n + 1) s = match M.step s with
      | .next t => M.run n t
      | .fault f => .fault f
      | .refused r => .refused r := by
  simp only [Host.Core.run] <;> cases M.step s <;> rfl

/-- A run of steps is a run of the host's interface. -/
theorem runSteps_eq_run (n : Nat) (s : State) : runSteps n s = Host.Core.run Sys2Proof.core n s := by
  induction n generalizing s with
  | zero => rfl
  | succ n ih =>
    refine Eq.trans ?_ (run_succ_eq Sys2Proof.core n s).symm
    have e : Sys2Proof.core.step s = step s := rfl
    simp only [runSteps, e]
    cases step s with
    | next t => exact ih t
    | fault f => rfl
    | refused r => rfl

end Sys2Proof.Machine
end

