-- ==== Sys2Proof/Laws/Key.lean ====
section
/-! SUPPORT. The key space keeps its canonical form under every operation, and a read after a write gives what was
written there and leaves every other index alone. -/

namespace Sys2Proof.Machine

theorem cellsWf_weaken {lo lo' hi : Nat} (hlo : lo' ≤ lo) :
    ∀ {cs : List (Nat × Word)}, cellsWf lo hi cs = true → cellsWf lo' hi cs = true
  | [], _ => rfl
  | (i, w) :: rest, h => by
    simp only [cellsWf, Bool.and_eq_true, decide_eq_true_eq] at h ⊢
    exact ⟨⟨⟨Nat.le_trans hlo h.1.1.1, h.1.1.2⟩, h.1.2⟩, h.2⟩

/-- `putCell` keeps the canonical form. -/
theorem putCell_wf {hi j : Nat} (w : Word) (hj : j < hi) :
    ∀ {lo : Nat} {cs : List (Nat × Word)}, lo ≤ j → cellsWf lo hi cs = true → cellsWf lo hi (putCell j w cs) = true
  | lo, [], hlo, _ => by
    unfold putCell
    split
    · rfl
    · rename_i hw; simp [cellsWf, hlo, hj, hw]
  | lo, (i, v) :: rest, hlo, h => by
    simp only [cellsWf, Bool.and_eq_true, decide_eq_true_eq] at h
    obtain ⟨⟨⟨h1, h2⟩, h3⟩, h4⟩ := h
    unfold putCell
    split
    · rename_i hij
      simp only [cellsWf, Bool.and_eq_true, decide_eq_true_eq]
      exact ⟨⟨⟨h1, h2⟩, h3⟩, putCell_wf w hj hij h4⟩
    · rename_i hij
      split
      · rename_i heq
        subst heq
        split
        · exact cellsWf_weaken (Nat.le_succ_of_le h1) h4
        · rename_i hw; simp [cellsWf, h1, h2, hw, h4]
      · rename_i hne
        have hji : j + 1 ≤ i := by omega
        split
        · simp [cellsWf, h1, h2, h3, h4]
        · rename_i hw; simp [cellsWf, hlo, hj, hw, hji, h2, h3, h4]

/-- The host's write keeps the canonical form. -/
theorem writeKey_wf {k : KeySpace} {j : Nat} (w : Word) (hj : j < 2 ^ 32) (h : k.wf = true) :
    (writeKey k j w).wf = true :=
  putCell_wf w hj (Nat.zero_le j) h

/-- An index below every cell of a canonical list reads as unlisted. -/
theorem lookupCell_below {hi : Nat} :
    ∀ {lo j : Nat} {cs : List (Nat × Word)}, cellsWf lo hi cs = true → j < lo → lookupCell j cs = KeySpace.unlisted
  | _, _, [], _, _ => rfl
  | lo, j, (i, w) :: rest, h, hj => by
    simp only [cellsWf, Bool.and_eq_true, decide_eq_true_eq] at h
    have hne : ¬ i = j := by omega
    rw [lookupCell, if_neg hne]
    exact lookupCell_below h.2 (by omega)

/-- A read after a write, at the same index and at another. -/
theorem lookupCell_putCell {hi : Nat} (j k : Nat) (w : Word) :
    ∀ {lo : Nat} {cs : List (Nat × Word)}, cellsWf lo hi cs = true →
      lookupCell k (putCell j w cs) = if k = j then w else lookupCell k cs
  | _, [], _ => by
    unfold putCell
    by_cases hw : w = KeySpace.unlisted
    · rw [if_pos hw]; split <;> simp [lookupCell, hw]
    · rw [if_neg hw]; by_cases hk : k = j
      · simp [lookupCell, hk]
      · have hjk : ¬ j = k := fun e => hk e.symm
        simp [lookupCell, hk, hjk]
  | lo, (i, v) :: rest, h => by
    simp only [cellsWf, Bool.and_eq_true, decide_eq_true_eq] at h
    obtain ⟨⟨⟨h1, h2⟩, h3⟩, h4⟩ := h
    have ih := lookupCell_putCell j k w h4
    unfold putCell
    split
    · rename_i hij
      by_cases hik : i = k
      · have hkj : ¬ k = j := by omega
        simp [lookupCell, hik, hkj]
      · simp [lookupCell, hik, ih]
    · rename_i hij
      split
      · rename_i heq
        subst heq
        split
        · rename_i hw
          by_cases hk : k = i
          · subst hk; rw [if_pos rfl, hw]; exact lookupCell_below h4 (Nat.lt_succ_self k)
          · have hik : ¬ i = k := fun e => hk e.symm
            simp [lookupCell, hk, hik]
        · by_cases hk : k = i
          · simp [lookupCell, hk]
          · have hik : ¬ i = k := fun e => hk e.symm
            simp [lookupCell, hk, hik]
      · rename_i hne
        have hbelow : lookupCell j ((i, v) :: rest) = KeySpace.unlisted := by
          rw [lookupCell, if_neg hne]
          exact lookupCell_below h4 (by omega)
        split
        · rename_i hw
          by_cases hk : k = j
          · subst hk; rw [if_pos rfl, hw]; exact hbelow
          · rw [if_neg hk]
        · by_cases hk : k = j
          · simp [lookupCell, hk]
          · have hjk : ¬ j = k := fun e => hk e.symm
            simp [lookupCell, hk, hjk]

/-- The key space after power-up is in canonical form. -/
theorem reset_key_wf : State.reset.key.wf = true := rfl

/-- The host's write is seen at its index and nowhere else. -/
theorem keyRead_writeKey {key : KeySpace} (j k : Nat) (w : Word) (h : key.wf = true) :
    keyRead (writeKey key j w) k = if k = j then w else keyRead key k :=
  lookupCell_putCell j k w h

/-- The cells of a list of words are canonical, between its first index and its end. -/
theorem cellsFrom_wf : ∀ (ws : List Word) (j hi : Nat), j + ws.length ≤ hi → cellsWf j hi (cellsFrom j ws) = true
  | [], _, _, _ => rfl
  | w :: ws, j, hi, h => by
    simp only [List.length_cons] at h
    have ih := cellsFrom_wf ws (j + 1) hi (by omega)
    unfold cellsFrom
    split
    · exact cellsWf_weaken (Nat.le_succ j) ih
    · rename_i hw
      have hj : j < hi := by omega
      simp [cellsWf, hj, hw, ih]

/-- A key space made of words is in canonical form. -/
theorem keyOfWords_wf {ws : List Word} (h : ws.length ≤ 2 ^ 32) : (keyOfWords ws).wf = true :=
  cellsFrom_wf ws 0 (2 ^ 32) (by omega)

end Sys2Proof.Machine
end

