-- ==== Sys2Proof/Laws/PerInstr.lean ====
section
/-! SUPPORT. Statements made per command. `RowMatch`: the encoding of a command matches the row of the command table
that bears its mnemonic (R37). -/

namespace Sys2Proof.Laws.RowMatch

/-- The encoding of `i` matches the table's row of its mnemonic. -/
def Statement (i : Instr) : Prop :=
  ∃ r ∈ opcodeTable, r.mnemonic = mnemonicOf i ∧ r.matchesWord (encode i) = true

theorem high_bits_of_append (op : BitVec 2) (len : Word) :
    ((op ++ len : CommandWord) &&& 0x300000000#34) = (op ++ 0#32 : CommandWord) := by
  ext b hb
  have mask : ∀ c : Fin 34, (0x300000000#34).getLsbD c.val = decide (32 ≤ c.val) := by decide
  have hm := mask ⟨b, hb⟩
  rw [BitVec.getLsbD_eq_getElem hb] at hm
  simp only [BitVec.getElem_and, BitVec.getElem_append, BitVec.getElem_zero, hm]
  by_cases h : b < 32
  · simp [h]
  · have h' : 32 ≤ b := by omega
    simp [h, h']

theorem seed (len : Word) : Statement (.seed len) := by
  refine ⟨⟨"SEED", 0x300000000#34, 0x100000000#34⟩, by decide, rfl, ?_⟩
  have h := high_bits_of_append 0b01#2 len
  simp only [OpcodeRow.matchesWord, encode, opcodeOf, lenOf, h]
  rfl

theorem next : Statement .next :=
  ⟨⟨"NEXT", 0x300000000#34, 0x200000000#34⟩, by decide, rfl, by decide⟩

theorem release : Statement .release :=
  ⟨⟨"RELEASE", 0x300000000#34, 0x300000000#34⟩, by decide, rfl, by decide⟩

theorem reserved : Statement .reserved :=
  ⟨⟨"RESERVED", 0x300000000#34, 0x000000000#34⟩, by decide, rfl, by decide⟩

end Sys2Proof.Laws.RowMatch
end

