-- ==== Sys2Proof/Tests/Slice0.lean ====
section
/-! SUPPORT. Tests, each on one step or one word, with expected results from the spec (its place is cited), and for each
statement with hypotheses a named witness that meets them all. -/

namespace Sys2Proof.Tests

open Sys2Proof Sys2Proof.Machine

/-! ### Small states -/

/-- The array that holds `cells` and zero elsewhere. -/
def arrayOf (cells : List (Nat × Word)) : StateArray :=
  cells.foldl (fun mt c => writeMT mt c.1 c.2) (Vector.replicate 624 0#32)

/-- A live engine with this array and cursor, its ports idle. -/
def liveWith (mt : StateArray) (idx : Fin 625) : State := { State.reset with mt := mt, idx := idx, live := true }

/-- The key K4 of 95_test_vectors.md. -/
def keyK4 : KeySpace := keyOfWords [0x123#32, 0x234#32, 0x345#32, 0x456#32]

/-- The words of the last response, as one response word; all ones if there is none. -/
def lastResponse : Host.Outcome State Fault Refusal → ResponseWord
  | .next t => (t.responses.getLast?.map responseWord).getD 0x7FFFFFFFF#35
  | .fault _ => 0x7FFFFFFFF#35
  | .refused _ => 0x7FFFFFFFF#35

/-- A property of the next state; false of a stop. -/
def after (o : Host.Outcome State Fault Refusal) (p : State → Bool) : Bool :=
  match o with
  | .next t => p t
  | .fault _ => false
  | .refused _ => false

/-! ### Decoding: words written bit by bit from R37 -/

/-- OP = 01, LEN = 4 (section 2.6). -/
theorem test_decode_seed : decode 0b0100000000000000000000000000000100#34 = .seed 4#32 := by decide
/-- OP = 10 with ignored LEN bits (section 2.6). -/
theorem test_decode_next : decode 0b1011111111111111111111111111111111#34 = .next := by decide
/-- OP = 11, LEN = 0xABCDEF01 ignored (section 2.6). -/
theorem test_decode_release : decode 0b1110101011110011011110111100000001#34 = .release := by decide
/-- OP = 00, the all-zero word (R40). -/
theorem test_decode_reserved : decode 0b0000000000000000000000000000000000#34 = .reserved := by decide
/-- The largest LEN is legal and kept whole (section 2.6, R38). -/
theorem test_decodeTableWord_seed : decodeTableWord 40 0x1FFFFFFFF = some (.seed 4294967295#32) := by decide
/-- The encodings of the syntax of R48. -/
theorem test_encode : encode (.seed 4#32) = 0x100000004#34 ∧ encode .next = 0x200000000#34 ∧
    encode .release = 0x300000000#34 ∧ encode .reserved = 0x000000000#34 := by decide

/-! ### Well-formedness: an ill-formed line for each check of R48, refused -/

theorem test_wf_len_range : (AsmLine.seed (2 ^ 32) []).wellFormed = false := by decide
theorem test_wf_len_is_count : (AsmLine.seed 2 [1]).wellFormed = false := by decide
theorem test_wf_word_range : (AsmLine.seed 1 [2 ^ 32]).wellFormed = false := by decide
theorem test_wf_word34_range : (AsmLine.word34 (2 ^ 34)).wellFormed = false := by decide
theorem test_wf_create_word_range : (AsmLine.create [2 ^ 32]).wellFormed = false := by decide
theorem test_wf_accepts : (AsmLine.seed 4 [0x123, 0x234, 0x345, 0x456]).wellFormed = true := by decide
/-- A key whose cells do not rise, and one that lists an unlisted word, are not canonical. -/
theorem test_key_wf_refuses : KeySpace.wf ⟨[(2, 1#32), (1, 1#32)], 3⟩ = false ∧ KeySpace.wf ⟨[(2, 0#32)], 3⟩ = false := by
  decide

/-! ### Pure functions: rows of section 2.1 -/

theorem test_temper : temper 0x12345678#32 = 0x2B7E4A2D#32 ∧ temper 0xFFFFFFFF#32 = 0x6FE01BF8#32 ∧
    temper 0x266EF095#32 = 0x3FA23623#32 := by decide
theorem test_temper_stages : temperStage1 0xDEADBEEF#32 = 0xDEB66B58#32 ∧ temperStage2 0xDEB66B58#32 = 0xC7926F58#32 ∧
    temperStage3 0xC7926F58#32 = 0xE0166F58#32 ∧ temperStage4 0xE0166F58#32 = 0xE016575D#32 := by decide
theorem test_mix : mix 0x12345678#32 0x9ABCDEF1#32 = 0x9456DFA7#32 ∧ mix 0x12345678#32 0x9ABCDEF0#32 = 0x0D5E6F78#32 ∧
    mix 0x7FFFFFFF#32 0x80000000#32 = 0#32 ∧ mix 0xFFFFFFFF#32 0xFFFFFFFF#32 = 0xE6F74F20#32 := by decide

/-! ### SEED: single iterations of section 2.2 -/

/-- Phase A, word 3 from word 2 and word 623 from word 622. -/
theorem test_phaseA_step :
    readMT (phaseAStep 3 (arrayOf [(2, 0x342096B7#32)])) 3 = 0x54846536#32 ∧
    readMT (phaseAStep 623 (arrayOf [(622, 0x6174EBF6#32)])) 623 = 0xAD2949E2#32 := by decide +kernel
/-- Phase B, iteration n = 0 of K4: the word and the cursors. -/
theorem test_phaseB_first :
    let c := phaseBStep keyK4 4 ⟨arrayOf [(0, 0x012BD6AA#32), (1, 0x82D2AB13#32)], 1, 0, []⟩
    readMT c.mt 1 = 0xFF890AD4#32 ∧ c.i = 2 ∧ c.j = 1 := by decide +kernel
/-- Phase B, iteration n = 623 of K4, on the word after the copy: `MT[0]` = 0x0590E802, key word 3; `j` wraps to 0. -/
theorem test_phaseB_last :
    let c := phaseBStep keyK4 4 ⟨arrayOf [(0, 0x0590E802#32), (1, 0xFF890AD4#32)], 1, 3, []⟩
    readMT c.mt 1 = 0x5377A327#32 ∧ c.i = 2 ∧ c.j = 0 := by decide +kernel
/-- Phase C, iteration n = 0 of K4, starting at i = 2 (R58). -/
theorem test_phaseC_first :
    let c := phaseCStep ⟨arrayOf [(1, 0x5377A327#32), (2, 0x9766A291#32)], 2, 0, []⟩
    readMT c.mt 2 = 0x51BE5D6D#32 ∧ c.i = 3 := by decide +kernel
/-- Phase C, iteration n = 621 of K4: word 623, the copy into `MT[0]`, and `i` back to 1. -/
theorem test_phaseC_copy :
    let c := phaseCStep ⟨arrayOf [(622, 0x605E8081#32), (623, 0x0590E802#32)], 623, 0, []⟩
    readMT c.mt 623 = 0x049ED813#32 ∧ readMT c.mt 0 = 0x049ED813#32 ∧ c.i = 1 := by decide +kernel
/-- SEED 4, K4 (R50): OK, DATA 0; live, exhausted, word 0 forced. -/
theorem test_seed_K4 :
    after (exec (.seed 4#32) { State.reset with key := keyK4 })
      (fun t => t.live && t.idx.val == 624 && t.responses == [⟨.ok, 0#32⟩]) = true := by decide
/-- SEED 0 (section 2.6): InvalidSeed; live stays live. -/
theorem test_seed_empty : lastResponse (exec (.seed 0#32) (liveWith (arrayOf []) 2)) = 0x100000000#35 ∧
    after (exec (.seed 0#32) (liveWith (arrayOf []) 2)) (fun t => t.live && t.idx.val == 2 && t.keyReads == []) = true := by
  decide +kernel
/-- The key reads as its brace list (R48). -/
theorem test_key_read : keyRead keyK4 0 = 0x123#32 ∧ keyRead keyK4 3 = 0x456#32 ∧ answersAll keyK4 4 = true ∧
    answersAll keyK4 5 = false := by decide

/-! ### The twist: single steps of section 2.4 -/

theorem test_twist_step_old :
    readMT (twistStep 0 (arrayOf [(0, 0x80000000#32), (1, 0x6CF23357#32), (397, 0xC91F59E1#32)])) 0 = 0x266EF095#32 := by
  decide +kernel
theorem test_twist_step_new :
    readMT (twistStep 227 (arrayOf [(227, 0xC9480541#32), (228, 0x30FA4815#32), (0, 0x266EF095#32)])) 227 = 0xE71B6440#32 ∧
    readMT (twistStep 623 (arrayOf [(623, 0x049ED813#32), (0, 0x266EF095#32), (396, 0x20778E2B#32)])) 623 = 0xAA4846BE#32 := by
  decide +kernel

/-! ### The corrected known answers (section 1.1, section 2.3) on the list forms -/

/-- The first draw after SEED 4, K4 is 1067595299. -/
theorem test_K4_draw_1 : (twistList (seedList keyK4 4)).head?.map temper = some 1067595299#32 := by decide +kernel
/-- The 624th draw after SEED 4, K4 is 144400272: its word rests on new words, in the in-place order (R68). -/
theorem test_K4_draw_624 : (twistList (seedList keyK4 4)).getLast?.map temper = some 144400272#32 := by decide +kernel

/-! ### NEXT -/

/-- The second draw of K4 (section 2.6, section 2.4): no twist, draws `MT[1]`, `IDX` 1 to 2. -/
theorem test_next_fresh :
    lastResponse (exec .next (liveWith (arrayOf [(1, 0xFB41A5D5#32)]) 1)) = 0x038FA935F#35 ∧
    after (exec .next (liveWith (arrayOf [(1, 0xFB41A5D5#32)]) 1)) (fun t => t.idx.val == 2) = true := by decide +kernel
/-- Draw 624 of K4 (section 2.3): draws `MT[623]`, leaves the batch exhausted. -/
theorem test_next_last :
    lastResponse (exec .next (liveWith (arrayOf [(623, 0xAA4846BE#32)]) 623)) = 0x0089B5F90#35 ∧
    after (exec .next (liveWith (arrayOf [(623, 0xAA4846BE#32)]) 623)) batchExhausted = true := by decide +kernel
/-- NEXT on an absent engine (section 2.6). -/
theorem test_next_absent : lastResponse (exec .next State.reset) = 0x200000000#35 := by decide +kernel

/-! ### RELEASE, the reserved opcode, the step -/

theorem test_release_live : lastResponse (exec .release (liveWith (arrayOf []) 624)) = 0x000000000#35 ∧
    after (exec .release (liveWith (arrayOf []) 624)) (fun t => t.live == false) = true := by decide +kernel
theorem test_reserved : lastResponse (exec .reserved State.reset) = 0x300000000#35 := by decide +kernel
/-- A step takes the host's first event; program P2's first command. -/
theorem test_step_next :
    lastResponse (step { State.reset with host := assemble [.next, .release] }) = 0x200000000#35 ∧
    after (step { State.reset with host := assemble [.next, .release] }) (fun t => t.host.length == 1) = true := by
  decide +kernel
/-- The reset input makes a live engine absent, with no response (R101). -/
theorem test_step_reset :
    after (step { liveWith (arrayOf []) 5 with host := [.reset] }) (fun t => !t.live && t.responses == []) = true := by
  decide +kernel
/-- Instance 1 of two takes a step; instance 0 keeps its host's event (R99). -/
theorem test_instances :
    ((stepSystemAt 1 [State.reset.withFetchWord 34 0, State.reset.withFetchWord 34 0]).map fun t => t.responses.length)
      = [0, 1] := by decide +kernel

/-! ### Witnesses: for each statement with hypotheses, a state and operands that meet them all -/

/-- A host's state for the step statements. -/
def hosted (e : HostEvent) : State := { State.reset with host := [e] }

/-- A state whose key answers a SEED of four words. -/
def keyed : State := { State.reset with key := keyK4 }

/-- The live, exhausted state of the counting and drawing statements. -/
def exhausted : State := liveWith (arrayOf []) 624

theorem witness_DecodeOfEncode : (Instr.seed 0xFFFFFFFF#32).wellFormed = true := by decide
theorem witness_EachWordMatchesOneRow :
    (⟨"SEED", 0x300000000#34, 0x100000000#34⟩ : OpcodeRow) ∈ opcodeTable ∧
    OpcodeRow.matchesWord ⟨"SEED", 0x300000000#34, 0x100000000#34⟩ 0x1FFFFFFFF#34 = true := by decide
theorem witness_IgnoredLenHasNoEffect :
    opField 0x3ABCDEF01#34 = opField 0x300000000#34 ∧ opField 0x3ABCDEF01#34 ≠ 0b01#2 := by decide
theorem witness_ResponseWordFields : responseWord ⟨.ok, 0#32⟩ = responseWord ⟨.ok, 0#32⟩ := rfl
/-- The largest command word of a `.word34` line. -/
theorem witness_CoreLinesBecomeEvents : 0x3FFFFFFFF < 2 ^ 34 := by decide
theorem witness_SeedLineMeansItsWords : (AsmLine.seed 2 [0xFFFFFFFF, 0]).wellFormed = true := by decide
theorem witness_KeyOfWordsReadsBack : 3 < [0x123#32, 0x234#32, 0x345#32, 0x456#32].length := by decide
theorem witness_StepRunsDecodedCommand :
    (hosted (.command 0x200000000#34 keyK4)).host = .command 0x200000000#34 keyK4 :: [] := rfl
theorem witness_StepRunsTableWord : decodeTableWord 40 0x300000000 = some .release := by decide
theorem witness_IdleKeepsState : State.reset.host = [] := rfl
theorem witness_ResetInputLeavesAbsent : (hosted .reset).host = .reset :: [] := rfl
/-- For the last clause: the key presented before the reset answers a SEED after it. -/
theorem witness_ResetInputLeavesAbsent_seed :
    ∃ s t : State, s.host = .reset :: [] ∧ step s = .next t ∧ 4#32 ≠ 0#32 ∧ answersAll t.key (4#32).toNat = true :=
  ⟨{ keyed with host := [.reset] }, resetEngine { keyed with host := [] }, rfl, rfl, by decide, by decide⟩
/-- For SeedRunsFourPhases, SeededArrayIsNotZero, SeedReadsKeyInOrder, SeedListAgrees: LEN 4,
below 624. -/
theorem witness_SeedRunsFourPhases : 4#32 ≠ 0#32 ∧ answersAll keyed.key (4#32).toNat = true := by decide
/-- The largest LEN, above 624. -/
theorem witness_SeedRunsFourPhases_long :
    0xFFFFFFFF#32 ≠ 0#32 ∧ answersAll ⟨[], 0xFFFFFFFF⟩ (0xFFFFFFFF#32).toNat = true := by decide
/-- For SeedReadsKeyInOrder: an index with a read more (`j < 624 mod LEN`) and one without, at LEN = 7, 624 mod 7 = 1. -/
theorem witness_SeedReadsKeyInOrder :
    7 ≤ 624 ∧ 0 < 7 ∧ 0 < 624 % 7 ∧ 6 < 7 ∧ ¬ 6 < 624 % 7 ∧ answersAll ⟨[], 7⟩ (7#32).toNat = true := by decide
theorem witness_SeedForgetsPriorState :
    4#32 ≠ 0#32 ∧ answersAll keyed.key (4#32).toNat = true ∧
    answersAll { exhausted with key := writeKey ⟨keyK4.cells, 9⟩ 8 1#32 }.key (4#32).toNat = true ∧
    ∀ j, j < (4#32).toNat →
      keyRead keyed.key j = keyRead { exhausted with key := writeKey ⟨keyK4.cells, 9⟩ 8 1#32 }.key j := by decide
theorem witness_SameSeedSameResponses :
    4#32 ≠ 0#32 ∧ keyed.key = { exhausted with key := keyK4 }.key ∧
    ∃ t, runCommands (.seed 4#32 :: [.reserved]) keyed = .next t :=
  ⟨by decide, rfl, _, rfl⟩
theorem witness_ReservedChangesNothing : opField 0x0DEADBEEF#34 = 0b00#2 := by decide
theorem witness_SeedWaitsForSilentHost : 5#32 ≠ 0#32 ∧ keyed.key.answered < (5#32).toNat := by decide
theorem witness_PhaseAWords : 1 ≤ 623 ∧ 623 ≤ 623 := by decide
/-- For PhaseBIteration and PhaseCWords, at both ends of the cursor. -/
theorem witness_PhaseBIteration :
    let c : SeedSweep := ⟨arrayOf [], 623, 3, []⟩
    1 ≤ c.i ∧ c.i ≤ 623 ∧ 1 ≤ 622 ∧ 622 ≤ 623 ∧ 622 ≠ c.i := by decide
theorem witness_PhaseCWords :
    let c : SeedSweep := ⟨arrayOf [], 1, 0, []⟩
    1 ≤ c.i ∧ c.i ≤ 623 ∧ 1 ≤ 623 ∧ 623 ≤ 623 := by decide
theorem witness_PhaseBCursors : 1 ≤ 1 := by decide
theorem witness_CursorCarriesIntoPhaseC : 1 ≤ 625 ∧ ¬ 625 ≤ 624 ∧ 1 ≤ 624 ∧ 624 ≤ 624 := by decide
theorem witness_TwistWords : 226 ≤ 226 ∧ 227 ≤ 227 ∧ 227 ≤ 622 ∧ 227 ≤ 622 ∧ 622 ≤ 622 := by decide
theorem witness_AllZeroIsFixedByTwist : ∀ n, n < 624 → readMT (Vector.replicate 624 0#32) n = 0#32 := by
  intro n hn
  rw [readMT_of_lt _ hn, Vector.getElem_replicate]
theorem witness_TemperSteps :
    0x00000081#32 = 0x00000001#32 ^^^ ((0x00000001#32 <<< 7) &&& 0x9D2C5680#32) ∧
    0x00000001#32 = 0x00000001#32 ^^^ (0x00000001#32 >>> 11) ∧
    0x00400081#32 = 0x00000081#32 ^^^ ((0x00000081#32 <<< 15) &&& 0xEFC60000#32) ∧
    0x00400091#32 = 0x00400081#32 ^^^ (0x00400081#32 >>> 18) := by decide
/-- For ReleaseOfAbsentIsNoOp and the first clause of NextDrawsTemperedWord. -/
theorem witness_ReleaseOfAbsentIsNoOp : State.reset.live = false := rfl
/-- For NextDrawsTemperedWord and ReleaseEndsTheGenerator, in both regimes, at the ends of the fresh one. -/
theorem witness_NextDrawsTemperedWord :
    exhausted.live = true ∧ exhausted.idx.val = 624 ∧
    (liveWith (arrayOf []) 623).live = true ∧ (liveWith (arrayOf []) 623).idx.val < 624 ∧
    (liveWith (arrayOf []) 1).idx.val < 624 := by decide

/-- The stream of R79 that begins with an array, for the witness of DrawsFollowTheRecurrence. -/
def streamFrom (mt : StateArray) (n : Nat) : Word :=
  if n < 624 then readMT mt n
  else streamFrom mt (n - 227) ^^^ mix (streamFrom mt (n - 624)) (streamFrom mt (n - 623))
termination_by n

theorem streamFrom_base (mt : StateArray) {n : Nat} (h : n < 624) : streamFrom mt n = readMT mt n := by
  rw [streamFrom, if_pos h]

theorem streamFrom_step (mt : StateArray) (n : Nat) :
    streamFrom mt (n + 624) = streamFrom mt (n + 397) ^^^ mix (streamFrom mt n) (streamFrom mt (n + 1)) := by
  rw [streamFrom, if_neg (by omega)]
  rw [show n + 624 - 227 = n + 397 by omega, show n + 624 - 624 = n by omega, show n + 624 - 623 = n + 1 by omega]

theorem witness_DrawsFollowTheRecurrence :
    4#32 ≠ 0#32 ∧ answersAll keyed.key (4#32).toNat = true ∧
    [Instr.next, .reserved, .seed 0#32, .next].all drawOrRefused = true ∧
    ∃ s, exec (.seed 4#32) keyed = .next s ∧
      (∀ n, n < 624 → streamFrom s.mt n = readMT s.mt n) ∧
      ∀ n, streamFrom s.mt (n + 624) =
        streamFrom s.mt (n + 397) ^^^ mix (streamFrom s.mt n) (streamFrom s.mt (n + 1)) :=
  ⟨by decide, by decide, by decide, _, rfl, fun _ h => streamFrom_base _ h, streamFrom_step _⟩

theorem witness_TwistsAreCounted :
    exhausted.live = true ∧ exhausted.idx.val = 624 ∧ [Instr.next, .reserved, .seed 0#32].all drawOrRefused = true := by
  decide
/-- For LifecycleTable, ResponseTable and CommandFrames: every command completes somewhere. -/
theorem witness_LifecycleTable :
    (∃ t, exec (.seed 0#32) State.reset = .next t) ∧ (∃ t, exec (.seed 4#32) keyed = .next t) ∧
    (∃ t, exec .next State.reset = .next t) ∧ (∃ t, exec .next exhausted = .next t) ∧
    (∃ t, exec .release State.reset = .next t) ∧ (∃ t, exec .release exhausted = .next t) ∧
    ∃ t, exec .reserved State.reset = .next t :=
  ⟨⟨_, rfl⟩, ⟨_, rfl⟩, ⟨_, rfl⟩, ⟨_, rfl⟩, ⟨_, rfl⟩, ⟨_, rfl⟩, _, rfl⟩
theorem witness_ErrorsChangeNothing :
    ∃ (t : State) (r : Response), exec .reserved exhausted = .next t ∧
      t.responses = exhausted.responses ++ [r] ∧ r.status ≠ .ok :=
  ⟨_, ⟨.illegalCommand, 0#32⟩, rfl, rfl, by decide⟩
theorem witness_OnlySilentHostStops : exec (.seed 5#32) keyed = .fault .keyNeverAnswered := rfl
theorem witness_StepKeepsInv :
    Inv { exhausted with key := keyK4, host := [.command 0x200000000#34 keyK4, .reset] } ∧
    ∃ t, step { exhausted with key := keyK4, host := [.command 0x200000000#34 keyK4, .reset] } = .next t :=
  ⟨by decide, _, rfl⟩
theorem witness_AnsweredRunsNeverStop :
    HostDutiful { State.reset with host := [.command 0x100000004#34 keyK4, .command 0x200000000#34 ⟨[], 0⟩, .reset] } := by
  decide
/-- A dutiful instance beside one that waits for a silent host, both stepped. -/
theorem witness_InstancesAreIndependent :
    [State.reset.withFetchWord 34 0x100000004, { keyed with host := [.command 0x100000005#34 keyK4] }][0]? =
      some (State.reset.withFetchWord 34 0x100000004) ∧
    HostDutiful (State.reset.withFetchWord 34 0x100000004) ∧
    ¬ HostDutiful { keyed with host := [.command 0x100000005#34 keyK4] } := ⟨rfl, by decide, by decide⟩
/-- Two absent states with different contents. -/
theorem witness_AbsentContentsNeverSeen :
    SameView State.reset { State.reset with mt := arrayOf [(0, 1#32)], idx := 7, freeCount := 3 } ∧
    (State.reset.idx ≠ { State.reset with mt := arrayOf [(0, 1#32)], idx := 7, freeCount := 3 }.idx) := by
  refine ⟨⟨rfl, fun h => ?_, rfl, rfl, rfl, rfl⟩, by decide⟩
  exact absurd h (by decide)

end Sys2Proof.Tests
end

section
/-! PROOFS. The scope statements: what one step runs (00_scope.md R9). -/

namespace Sys2Proof.Machine

/-- A command with its key at the head of the host's events is accepted (R33, R35). -/
theorem takeEvent_of_command {s : State} {cw : CommandWord} {key : KeySpace} {rest : List HostEvent}
    (h : s.host = .command cw key :: rest) :
    takeEvent s = .accepted cw { s with key := key, host := rest } := by
  simp only [takeEvent, h]

/-- Settles O11: the inputs accept the command, and `step` runs its decoded word on the state they leave. -/
theorem stepRunsDecodedCommand : Obligations.StepRunsDecodedCommand := by
  intro s cw key rest h
  simp only [step, takeEvent_of_command h]

end Sys2Proof.Machine
end

section
/-! PROOFS. The state statements (10_state.md): the invariant, what each command leaves unchanged, the fixed point of
the twist, and that the contents of an absent engine are never seen. -/

namespace Sys2Proof.Machine

/-! ### Everything a completed command does -/

/-- `Effect s i r u`: run on `s`, command `i` completes with response `r`, and `u` is the state it leaves before `r` is
added to the responses (R50, R51, R74, R80, R82, R83, R40). -/
inductive Effect (s : State) : Instr → Response → State → Prop where
  | emptySeed : Effect s (.seed 0#32) ⟨.invalidSeed, 0#32⟩ s
  | seeded (len : Word) (hlen : len ≠ 0#32) (hkey : answersAll s.key len.toNat = true) :
      Effect s (.seed len) ⟨.ok, 0#32⟩ (seedState len.toNat s)
  | drawn (hlive : s.live = true) :
      Effect s .next ⟨.ok, temper (rawWord (schedule s))⟩ (advanceIdx (schedule s))
  | absentNext (habsent : s.live = false) : Effect s .next ⟨.invalidHandle, 0#32⟩ s
  | released (hlive : s.live = true) : Effect s .release ⟨.ok, 0#32⟩ (loseContents (goAbsent s))
  | absentRelease (habsent : s.live = false) : Effect s .release ⟨.ok, 0#32⟩ s
  | reserved : Effect s .reserved ⟨.illegalCommand, 0#32⟩ s

/-- A command that completes has one of the effects of `Effect`, then gives its response. -/
theorem effect_of_exec_next {i : Instr} {s t : State} (h : exec i s = .next t) :
    ∃ r u, Effect s i r u ∧ t = { u with responses := u.responses ++ [r] } := by
  cases i with
  | seed len =>
    rw [exec_seed] at h
    obtain ⟨rfl, e⟩ | ⟨hlen, hkey, e⟩ | ⟨_, _, e⟩ := execSeed_cases len s
    · exact ⟨_, _, .emptySeed, raise_next.1 (e ▸ h)⟩
    · exact ⟨_, _, .seeded len hlen hkey, respond_next.1 (e ▸ h)⟩
    · rw [e] at h; cases h
  | next =>
    rw [exec_next] at h
    obtain ⟨hlive, e⟩ | ⟨habsent, e⟩ := execNext_cases s
    · exact ⟨_, _, .drawn hlive, respond_next.1 (e ▸ h)⟩
    · exact ⟨_, _, .absentNext habsent, raise_next.1 (e ▸ h)⟩
  | release =>
    rw [exec_release] at h
    obtain ⟨hlive, e⟩ | ⟨habsent, e⟩ := execRelease_cases s
    · exact ⟨_, _, .released hlive, respond_next.1 (e ▸ h)⟩
    · exact ⟨_, _, .absentRelease habsent, respond_next.1 (e ▸ h)⟩
  | reserved => exact ⟨_, _, .reserved, raise_next.1 h⟩

/-- Settles O46: each effect of a completed command names the fields it writes. -/
theorem commandFrames : Obligations.CommandFrames := by
  intro i s t h
  obtain ⟨r, u, heff, rfl⟩ := effect_of_exec_next h
  cases heff with
  | emptySeed => exact ⟨rfl, rfl, fun _ => rfl, rfl, fun _ => ⟨rfl, rfl, rfl, rfl⟩⟩
  | seeded len hlen => exact ⟨rfl, rfl, fun _ => rfl, rfl, fun h0 => absurd h0 hlen⟩
  | drawn hlive =>
    have hmt : s.live = false ∨ s.idx.val ≠ 624 → (schedule s).mt = s.mt := by
      rintro (habsent | hfresh)
      · simp [hlive] at habsent
      · rw [schedule_fresh hfresh]
    simpa [hlive] using hmt
  | absentNext => exact ⟨rfl, rfl, fun _ => rfl, rfl, rfl, rfl, fun _ => rfl, fun _ => rfl⟩
  | released hlive => simp [hlive]
  | absentRelease => exact ⟨rfl, rfl, fun _ => rfl, rfl, fun _ => ⟨rfl, rfl, rfl, rfl⟩⟩
  | reserved => exact ⟨rfl, rfl, fun _ => rfl, rfl, rfl, rfl, rfl, rfl⟩

/-! ### The invariant (R15, R16) -/

/-- A command that completes keeps `1 <= IDX` while live: SEED leaves 624, and a draw leaves the cursor it drew at
plus 1. -/
theorem exec_keeps_idx_pos {i : Instr} {s t : State} (h : exec i s = .next t)
    (hs : s.live = true → 1 ≤ s.idx.val) : t.live = true → 1 ≤ t.idx.val := by
  obtain ⟨r, u, heff, rfl⟩ := effect_of_exec_next h
  cases heff with
  | seeded => exact fun _ => (by decide : 1 ≤ (624 : Fin 625).val)
  | drawn =>
    have hidx := advanceIdx_schedule_idx s
    exact fun _ => by dsimp only; omega
  | released => simp
  | emptySeed | absentNext | absentRelease | reserved => exact hs

/-- A command that completes keeps the invariant; its key and the host's events stay as they were. -/
theorem exec_keeps_inv {i : Instr} {s t : State} (h : exec i s = .next t) (hs : Inv s) : Inv t := by
  obtain ⟨hidx, hkey, hhost⟩ := hs
  obtain ⟨ekey, ehost, -, -⟩ := commandFrames i s t h
  exact ⟨exec_keeps_idx_pos h hidx, by rwa [ekey], by rwa [ehost]⟩

/-- Settles O49: a step is idle, or the reset input, which leaves the engine absent, or a command whose key the
invariant of the host's events has canonical. -/
theorem stepKeepsInv : Obligations.StepKeepsInv := by
  intro s t ⟨hidx, hkey, hhost⟩ h
  obtain ⟨-, e⟩ | ⟨rest, hr, e⟩ | ⟨cw, key, rest, hr, e⟩ := step_cases s <;> rw [e] at h
  · cases h; exact ⟨hidx, hkey, hhost⟩
  · obtain ⟨-, hrest⟩ := List.forall_mem_cons.1 (hr ▸ hhost)
    cases h; exact ⟨nofun, hkey, hrest⟩
  · obtain ⟨hhead, hrest⟩ := List.forall_mem_cons.1 (hr ▸ hhost)
    exact exec_keeps_inv h ⟨hidx, hhead, hrest⟩

/-- Settles O48: absent, with an empty key and no events. -/
theorem invHoldsAtReset : Obligations.InvHoldsAtReset := ⟨nofun, reset_key_wf, nofun⟩

/-! ### Commands on an absent engine -/

/-- NEXT on an absent engine is refused (R80). -/
theorem exec_next_of_absent {s : State} (h : s.live = false) : exec .next s = raise .invalidHandle s := by
  obtain ⟨hlive, -⟩ | ⟨-, e⟩ := execNext_cases s
  · simp [h] at hlive
  · exact e

/-- Settles O15: `LIVE = 0` at power-up (R22), so NEXT is refused. -/
theorem powerUpIsAbsent : Obligations.PowerUpIsAbsent :=
  ⟨rfl, (exec_next_of_absent rfl).trans (raise_next.2 rfl)⟩

/-! ### The all-zero array -/

/-- Writing a word that stands there already changes nothing. -/
theorem writeMT_readMT (mt : StateArray) (n : Nat) : writeMT mt n (readMT mt n) = mt := by
  refine stateArray_ext fun m _ => ?_
  rw [readMT_writeMT]
  split
  next h => rw [← readMT_mod mt n, h, readMT_mod]
  next => rfl

/-- The mix of two zero words is zero (R65). -/
theorem mix_zero : mix 0#32 0#32 = 0#32 := by decide

/-- Settles O34: each step of the pass writes `0 XOR mix(0, 0) = 0` over a zero word. -/
theorem allZeroIsFixedByTwist : Obligations.AllZeroIsFixedByTwist := by
  intro mt hz
  have hzero : ∀ n, readMT mt n = 0#32 := fun n => by
    rw [← readMT_mod]; exact hz _ (Nat.mod_lt n (by decide))
  have hstep : ∀ k, twistStep k mt = mt := fun k => by
    have hword : readMT mt (k + 397) ^^^ mix (readMT mt k) (readMT mt (k + 1)) = readMT mt k := by
      simp only [hzero, mix_zero, BitVec.xor_self]
    rw [twistStep, hword, writeMT_readMT]
  refine forRange_induct (fun _ a => a = mt) rfl 624 fun k a _ ha => ?_
  rw [ha, hstep]

/-! ### SEED does not depend on the array before it (R52) -/

/-- Word `i` of the linear initialisation (R52). -/
def linearWord : Nat → Word
  | 0 => Config.init0
  | i + 1 => Config.fInit * foldTop (linearWord i) + BitVec.ofNat 32 (i + 1)

/-- Phase A leaves the words of the linear initialisation, whatever the array held. -/
theorem readMT_phaseA (mt : StateArray) {n : Nat} (hn : n < 624) : readMT (phaseA mt) n = linearWord n := by
  have hprefix : ∀ m ≤ 623, readMT (phaseA mt) m = linearWord m := by
    refine forRange_induct (fun k a => ∀ m ≤ k, readMT a m = linearWord m) ?_ 623 fun k a hk ih m hm => ?_
    · intro m hm
      rw [Nat.le_zero.1 hm, readMT_writeMT_self, linearWord]
    · rw [Nat.add_comm 1 k, phaseAStep, Nat.add_sub_cancel, ih k (Nat.le_refl k)]
      obtain hlt | rfl := Nat.lt_or_eq_of_le hm
      · rw [readMT_writeMT_ne _ _ (by omega), ih m (Nat.le_of_lt_succ hlt)]
      · rw [readMT_writeMT_self, linearWord]
  exact hprefix n (Nat.le_of_lt_succ hn)

/-- Phase A forgets the array it starts from. -/
theorem phaseA_eq_phaseA (mt mt' : StateArray) : phaseA mt = phaseA mt' :=
  stateArray_ext fun _ hn => (readMT_phaseA mt hn).trans (readMT_phaseA mt' hn).symm

/-! ### States that no port can tell apart (R21, R22) -/

theorem sameView_respond {s s' : State} (st : Status) (data : Word) (h : SameView s s') :
    outcomesAgree (respond st data s) (respond st data s') := by
  obtain ⟨hlive, hreg, hkey, hhost, hresp, hreads⟩ := h
  exact ⟨hlive, hreg, hkey, hhost, congrArg (· ++ [⟨st, data⟩]) hresp, hreads⟩

theorem sameView_resetEngine {s s' : State} (h : SameView s s') : SameView (resetEngine s) (resetEngine s') := by
  obtain ⟨-, -, hkey, hhost, hresp, hreads⟩ := h
  exact ⟨rfl, nofun, hkey, hhost, hresp, hreads⟩

/-- SEED overwrites the whole array and cursor, so states of the same view leave it alike (R59). -/
theorem sameView_seedState {s s' : State} (len : Nat) (h : SameView s s') :
    SameView (seedState len s) (seedState len s') := by
  obtain ⟨-, -, hkey, hhost, hresp, hreads⟩ := h
  simp only [SameView, seedState_live, seedState_mt, seedState_idx, seedState_key, seedState_host,
    seedState_responses, seedState_keyReads, phaseA_eq_phaseA s.mt s'.mt, hkey, hhost, hresp, hreads,
    and_self, implies_true]

/-- While live, states of the same view differ in the model's counter alone. -/
theorem eq_of_sameView_of_live {s s' : State} (h : SameView s s') (hl : s.live = true) :
    s' = { s with freeCount := s'.freeCount } := by
  obtain ⟨hlive, hreg, hkey, hhost, hresp, hreads⟩ := h
  obtain ⟨hmt, hidx⟩ := hreg hl
  rw [hmt, hidx, hlive, hkey, hhost, hresp, hreads]

/-- The scheduler does not look at the model's counter. -/
theorem schedule_with_freeCount (s : State) (n : Nat) :
    schedule { s with freeCount := n } = { schedule s with freeCount := n } := by
  by_cases h : s.idx.val = 624
  · rw [schedule_exhausted h, schedule_exhausted (s := { s with freeCount := n }) h]; rfl
  · rw [schedule_fresh h, schedule_fresh (s := { s with freeCount := n }) h]

/-- Whether SEED is refused, completes or waits rests on LEN and the key alone (R51, R60, R107). -/
theorem sameView_execSeed {s s' : State} (len : Word) (h : SameView s s') :
    outcomesAgree (execSeed len s) (execSeed len s') := by
  have ⟨_, _, hkey, _⟩ := h
  rw [execSeed, execSeed, ← hkey]
  split
  · exact sameView_respond _ _ h
  · split
    · exact sameView_respond _ _ (sameView_seedState _ h)
    · rfl

/-- On a live engine NEXT runs alike on states that differ in the model's counter alone; on an absent one it is refused
whatever the contents (R80). -/
theorem sameView_execNext {s s' : State} (h : SameView s s') : outcomesAgree (execNext s) (execNext s') := by
  obtain ⟨hl, e⟩ | ⟨ha, e⟩ := execNext_cases s
  · rw [eq_of_sameView_of_live h hl, execNext, if_pos hl, execNext, if_pos hl,
      schedule_with_freeCount s s'.freeCount]
    exact sameView_respond _ _ ⟨rfl, fun _ => ⟨rfl, rfl⟩, rfl, rfl, rfl, rfl⟩
  · have ha' : ¬ s'.live = true := by simp [← h.1, ha]
    rw [e, execNext, if_neg ha']
    exact sameView_respond _ _ h

/-- RELEASE leaves an absent engine, whose contents the view does not show (R82, R83). -/
theorem sameView_execRelease {s s' : State} (h : SameView s s') :
    outcomesAgree (execRelease s) (execRelease s') := by
  rw [execRelease, execRelease, ← h.1]
  refine sameView_respond _ _ ?_
  split
  · exact sameView_resetEngine h
  · exact h

theorem sameView_exec {s s' : State} (i : Instr) (h : SameView s s') : outcomesAgree (exec i s) (exec i s') := by
  cases i with
  | seed len => exact sameView_execSeed len h
  | next => exact sameView_execNext h
  | release => exact sameView_execRelease h
  | reserved => exact sameView_respond _ _ h

theorem step_of_host_nil {s : State} (h : s.host = []) : step s = .next s := by
  simp only [step, takeEvent, h]

theorem step_of_host_reset {s : State} {rest : List HostEvent} (h : s.host = .reset :: rest) :
    step s = .next (resetEngine { s with host := rest }) := by
  simp only [step, takeEvent, h]

/-- One step from states of the same view: the same host's event is taken up, and the outcomes agree. -/
theorem sameView_step {s s' : State} (h : SameView s s') : outcomesAgree (step s) (step s') := by
  have ⟨hlive, hreg, hkey, hhost, hresp, hreads⟩ := h
  obtain ⟨hr, e⟩ | ⟨rest, hr, e⟩ | ⟨cw, key, rest, hr, e⟩ := step_cases s <;>
    rw [e] <;> rw [hhost] at hr
  · rw [step_of_host_nil hr]; exact h
  · rw [step_of_host_reset hr]; exact sameView_resetEngine ⟨hlive, hreg, hkey, rfl, hresp, hreads⟩
  · rw [stepRunsDecodedCommand s' cw key rest hr]
    exact sameView_exec _ ⟨hlive, hreg, rfl, rfl, hresp, hreads⟩

/-- Outcomes that agree are two next states of the same view, or the same stop. -/
theorem outcomesAgree_cases {o o' : Host.Outcome State Fault Refusal} (h : outcomesAgree o o') :
    (∃ t t', o = .next t ∧ o' = .next t' ∧ SameView t t') ∨ (∃ f, o = .fault f ∧ o' = .fault f) ∨
    ∃ r, o = .refused r ∧ o' = .refused r := by
  match o, o', h with
  | .next t, .next t', h => exact .inl ⟨t, t', rfl, rfl, h⟩
  | .fault f, .fault _, rfl => exact .inr (.inl ⟨f, rfl, rfl⟩)
  | .refused r, .refused _, rfl => exact .inr (.inr ⟨r, rfl, rfl⟩)

/-- A run is refused where its first step is refused. -/
theorem runSteps_of_refused {n : Nat} {s : State} {r : Refusal} (h : step s = .refused r) :
    runSteps (n + 1) s = .refused r := by
  simp only [runSteps, h]

/-- Settles O51, by induction on the number of steps. -/
theorem absentContentsNeverSeen : Obligations.AbsentContentsNeverSeen := by
  intro n
  induction n with
  | zero => exact fun _ _ h => h
  | succ n ih =>
    intro s s' h
    obtain ⟨t, t', e, e', ht⟩ | ⟨f, e, e'⟩ | ⟨r, e, e'⟩ := outcomesAgree_cases (sameView_step h)
    · rw [runSteps_of_next e, runSteps_of_next e']; exact ih t t' ht
    · rw [runSteps_of_fault e, runSteps_of_fault e']; rfl
    · rw [runSteps_of_refused e, runSteps_of_refused e']; rfl

end Sys2Proof.Machine
end

section
/-! PROOFS. The memory statements (20_memory.md): what the key made of a list of words reads as, and in which order
SEED reads the key. -/

namespace Sys2Proof.Machine

/-! ### The key made of a list of words (R24, R48) -/

/-- The cells of a list of words put from index `i` on read as its words; the zero words are not listed, and an index
not listed reads as zero. -/
theorem lookupCell_cellsFrom :
    ∀ (ws : List Word) (i k : Nat), lookupCell (i + k) (cellsFrom i ws) = ws.getD k KeySpace.unlisted
  | [], _, _ => rfl
  | w :: ws, i, 0 => by
    unfold cellsFrom
    split
    next hw => exact (lookupCell_below (cellsFrom_wf ws (i + 1) _ le_rfl) (Nat.lt_succ_self i)).trans hw.symm
    next => exact if_pos rfl
  | w :: ws, i, k + 1 => by
    have ih := lookupCell_cellsFrom ws (i + 1) k
    rw [Nat.add_right_comm, Nat.add_assoc] at ih
    have hne : i ≠ i + (k + 1) := by omega
    unfold cellsFrom
    split
    next => exact ih
    next => exact (if_neg hne).trans ih

theorem keyRead_keyOfWords (ws : List Word) (j : Nat) : keyRead (keyOfWords ws) j = ws.getD j 0#32 := by
  have h := lookupCell_cellsFrom ws 0 j
  rwa [Nat.zero_add] at h

theorem answersAll_keyOfWords (ws : List Word) : answersAll (keyOfWords ws) ws.length = true :=
  decide_eq_true le_rfl

/-- Settles O10: the cells read back as the words they were made of, and the key answers as many indices. -/
theorem keyOfWordsReadsBack : Obligations.KeyOfWordsReadsBack :=
  fun ws j _ => ⟨keyRead_keyOfWords ws j, answersAll_keyOfWords ws⟩

/-! ### The key cursor and the reads of phase B (R25, R53, R55) -/

@[simp] theorem phaseBStep_j (key : KeySpace) (len : Nat) (c : SeedSweep) :
    (phaseBStep key len c).j = if c.j + 1 = len then 0 else c.j + 1 := by
  simp [phaseBStep, advanceJ_j]

@[simp] theorem phaseBStep_reads (key : KeySpace) (len : Nat) (c : SeedSweep) :
    (phaseBStep key len c).reads = c.j :: c.reads := by
  simp [phaseBStep]

/-- The advance of a cursor that counts modulo `len` (R55). -/
theorem succ_mod_eq_ite {len : Nat} (hlen : 0 < len) (n : Nat) :
    (n + 1) % len = if n % len + 1 = len then 0 else n % len + 1 := by
  have hlt := Nat.mod_lt n hlen
  rw [← Nat.mod_add_mod]
  split
  next h => rw [h, Nat.mod_self]
  next h => exact Nat.mod_eq_of_lt (by omega)

/-- After `n` iterations of phase B the key cursor is at `n mod LEN`, and the indices read so far are those of the
iterations before: that of iteration `m` is `m mod LEN`. -/
theorem repeatTimes_phaseBStep_j_reads (key : KeySpace) {len : Nat} (hlen : 0 < len) (mt : StateArray) (i n : Nat) :
    (repeatTimes n (phaseBStep key len) ⟨mt, i, 0, []⟩).j = n % len ∧
    (repeatTimes n (phaseBStep key len) ⟨mt, i, 0, []⟩).reads.reverse = (List.range n).map (· % len) := by
  refine repeatTimes_induct (fun n (c : SeedSweep) => c.j = n % len ∧ c.reads.reverse = (List.range n).map (· % len))
    ⟨(Nat.zero_mod len).symm, rfl⟩ (fun n c ⟨hj, hreads⟩ => ⟨?_, ?_⟩) n
  · rw [phaseBStep_j, hj, succ_mod_eq_ite hlen]
  · rw [phaseBStep_reads, List.reverse_cons, hreads, hj, List.range_succ, List.map_append, List.map_singleton]

/-- The indices presented on the key port by phase B (R25). -/
theorem phaseB_reads (key : KeySpace) {len : Nat} (hlen : 0 < len) (mt : StateArray) :
    (phaseB key len mt).reads.reverse = (List.range (max 624 len)).map (· % len) :=
  (repeatTimes_phaseBStep_j_reads key hlen mt 1 _).2

/-! ### How often each index is read (R25) -/

/-- Among the first `n` numbers, the residue `j` occurs once in every full round of `len`, and once more if the last,
partial round reaches it. -/
theorem count_map_mod_range {len j : Nat} (hj : j < len) (n : Nat) :
    ((List.range n).map (· % len)).count j = n / len + if j < n % len then 1 else 0 := by
  have hcount : ((List.range n).map (· % len)).count j = n.count (· ≡ j [MOD len]) := by
    rw [List.count, List.countP_map, Nat.count]
    refine List.countP_congr fun m _ => ?_
    simp [Nat.ModEq, Nat.mod_eq_of_lt hj]
  rw [hcount, Nat.count_modEq_card n (Nat.zero_lt_of_lt hj), Nat.mod_eq_of_lt hj]

/-- One round reads each index once, ascending. -/
theorem map_mod_range_self (len : Nat) : (List.range len).map (· % len) = List.range len :=
  (List.map_congr_left fun _ hm => Nat.mod_eq_of_lt (List.mem_range.1 hm)).trans (List.map_id _)

/-- SEED with LEN >= 1 and a host that answers completes, in `seedState` (R50). -/
theorem exec_seed_of_answered {len : Word} {s : State} (hlen : len ≠ 0#32)
    (hkey : answersAll s.key len.toNat = true) :
    exec (.seed len) s = respond .ok 0#32 (seedState len.toNat s) := by
  rw [exec_seed, execSeed, if_neg hlen, if_pos hkey]

/-- Settles O25: phase B presents the indices `n mod LEN` in turn; up to LEN = 624 they go round in 624 reads, and above
it they are one round of LEN. -/
theorem seedReadsKeyInOrder : Obligations.SeedReadsKeyInOrder := by
  intro len s hlen hkey
  have hpos : 0 < len.toNat := by
    rw [Nat.pos_iff_ne_zero]
    exact fun h => hlen (BitVec.eq_of_toNat_eq h)
  refine ⟨_, (List.range (max 624 len.toNat)).map (· % len.toNat), exec_seed_of_answered hlen hkey, ?_, rfl, ?_, ?_, ?_⟩
  · exact congrArg (s.keyReads ++ ·) (phaseB_reads s.key hpos (phaseA s.mt))
  · intro j hj
    obtain ⟨n, -, rfl⟩ := List.mem_map.1 hj
    exact Nat.mod_lt n hpos
  · intro hshort j hj
    rw [max_eq_left hshort, count_map_mod_range hj]
  · intro hlong
    rw [max_eq_right hlong.le, map_mod_range_self]

end Sys2Proof.Machine
end

section
/-! PROOFS. The encoding statements (30_encoding.md): command words and their fields, the response word, the assembler's
lines, the response of each command, and that a run with a host that answers key reads never stops. -/

namespace Sys2Proof.Machine

/-! ### The fields of a command word (R37) -/

@[simp] theorem opField_append (op : BitVec 2) (len : Word) : opField (op ++ len) = op :=
  BitVec.extractLsb'_append_eq_left

@[simp] theorem lenField_append (op : BitVec 2) (len : Word) : lenField (op ++ len) = len :=
  BitVec.extractLsb'_append_eq_right

theorem opField_append_lenField (cw : CommandWord) : opField cw ++ lenField cw = cw :=
  BitVec.extractLsb'_append_extractLsb' (w := 2) (len := 32)

theorem opField_encode (i : Instr) : opField (encode i) = opcodeOf i := opField_append _ _

theorem lenField_encode (i : Instr) : lenField (encode i) = lenOf i := lenField_append _ _

/-! ### Decoding by OP (R37, R39) -/

theorem decode_of_op_seed {cw : CommandWord} (h : opField cw = 0b01#2) : decode cw = .seed (lenField cw) :=
  if_pos h

theorem decode_of_op_next {cw : CommandWord} (h : opField cw = 0b10#2) : decode cw = .next := by
  simp [decode, h]

theorem decode_of_op_release {cw : CommandWord} (h : opField cw = 0b11#2) : decode cw = .release := by
  simp [decode, h]

theorem decode_of_op_reserved {cw : CommandWord} (h : opField cw = 0b00#2) : decode cw = .reserved := by
  simp [decode, h]

/-- A command word has one of four OP fields, and each has its decoding (R37, R39). -/
theorem decode_cases (cw : CommandWord) :
    (opField cw = 0b01#2 ∧ decode cw = .seed (lenField cw)) ∨ (opField cw = 0b10#2 ∧ decode cw = .next) ∨
    (opField cw = 0b11#2 ∧ decode cw = .release) ∨ (opField cw = 0b00#2 ∧ decode cw = .reserved) := by
  have hop : ∀ op : BitVec 2, op = 0b01#2 ∨ op = 0b10#2 ∨ op = 0b11#2 ∨ op = 0b00#2 := by decide
  obtain h | h | h | h := hop (opField cw)
  · exact .inl ⟨h, decode_of_op_seed h⟩
  · exact .inr (.inl ⟨h, decode_of_op_next h⟩)
  · exact .inr (.inr (.inl ⟨h, decode_of_op_release h⟩))
  · exact .inr (.inr (.inr ⟨h, decode_of_op_reserved h⟩))

theorem opcodeOf_decode (cw : CommandWord) : opcodeOf (decode cw) = opField cw := by
  obtain ⟨h, e⟩ | ⟨h, e⟩ | ⟨h, e⟩ | ⟨h, e⟩ := decode_cases cw <;> rw [e, h] <;> rfl

/-- But for SEED, the decoding rests on OP alone (R38, R39). -/
theorem decode_eq_of_opField_eq {cw cw' : CommandWord} (h : opField cw = opField cw') (hne : opField cw ≠ 0b01#2) :
    decode cw = decode cw' := by
  rw [decode, decode, ← h, if_neg hne, if_neg hne]

theorem decode_encode (i : Instr) : decode (encode i) = i := by
  have hop := opField_encode i
  cases i with
  | seed len => rw [decode_of_op_seed hop, lenField_encode, lenOf]
  | next => exact decode_of_op_next hop
  | release => exact decode_of_op_release hop
  | reserved => exact decode_of_op_reserved hop

/-- Settles O1: the word's OP field is the command's opcode, and its LEN field the command's LEN. -/
theorem decodeOfEncode : Obligations.DecodeOfEncode :=
  fun i _ => ⟨decode_encode i, lenField_encode i⟩

/-- The LEN bits of a decoded word: kept by SEED, 0 where they are ignored (R38). -/
theorem lenOf_decode (cw : CommandWord) :
    lenOf (decode cw) = if opField cw = 0b01#2 then lenField cw else 0#32 := by
  obtain ⟨h, e⟩ | ⟨h, e⟩ | ⟨h, e⟩ | ⟨h, e⟩ := decode_cases cw <;> rw [e, h] <;> rfl

/-- Settles O2: the opcode of the decoded command is the word's OP field, and its LEN bits are those `lenOf_decode`
gives. -/
theorem encodeOfDecode : Obligations.EncodeOfDecode := by
  intro cw
  rw [encode, opcodeOf_decode, lenOf_decode]
  split
  · exact opField_append_lenField cw
  · rfl

/-- Settles O4: the nine words, decoded. -/
theorem sampleWordsDecode : Obligations.SampleWordsDecode := by
  unfold Obligations.SampleWordsDecode
  decide

/-- Settles O5: words of equal OP, not SEED's, decode to the same command. -/
theorem ignoredLenHasNoEffect : Obligations.IgnoredLenHasNoEffect := by
  intro cw cw' h hne s
  rw [decode_eq_of_opField_eq h hne]

/-- Settles O42: OP = 00 decodes to the reserved command, which raises IllegalCommand. -/
theorem reservedChangesNothing : Obligations.ReservedChangesNothing :=
  ⟨fun _ => decode_of_op_reserved, fun _ => raise_next.2 rfl⟩

/-! ### The rows of the command table (R37) -/

/-- A word matches a row of the table when the row's pattern is the word's OP field over 32 zero bits. -/
theorem matchesWord_iff {r : OpcodeRow} (hr : r ∈ opcodeTable) (cw : CommandWord) :
    r.matchesWord cw = true ↔ opField cw ++ 0#32 = r.pattern := by
  have hmask : ∀ q ∈ opcodeTable, q.mask = 0x300000000#34 := by decide
  have hbits : cw &&& 0x300000000#34 = opField cw ++ 0#32 := by
    have h := Laws.RowMatch.high_bits_of_append (opField cw) (lenField cw)
    rwa [opField_append_lenField] at h
  rw [OpcodeRow.matchesWord, hmask r hr, hbits, beq_iff_eq]

theorem eq_of_pattern_eq : ∀ r ∈ opcodeTable, ∀ q ∈ opcodeTable, q.pattern = r.pattern → q = r := by decide

/-- The encoding of every command matches the row of its mnemonic. -/
theorem rowMatch_statement (i : Instr) : Laws.RowMatch.Statement i := by
  cases i with
  | seed len => exact Laws.RowMatch.seed len
  | next => exact Laws.RowMatch.next
  | release => exact Laws.RowMatch.release
  | reserved => exact Laws.RowMatch.reserved

/-- Settles O3: a word matches the row that the encoding of its decoding matches, since both have the same OP; rows have
distinct patterns, so it matches no other. -/
theorem eachWordMatchesOneRow : Obligations.EachWordMatchesOneRow := by
  intro cw
  obtain ⟨r, hr, hname, hencode⟩ := rowMatch_statement (decode cw)
  have hpat : opField cw ++ 0#32 = r.pattern := by
    rwa [matchesWord_iff hr, opField_encode, opcodeOf_decode] at hencode
  refine ⟨r, hr, (matchesWord_iff hr cw).2 hpat, hname, fun q hq hmatch => ?_, opcodeOf_decode cw, decode_of_op_seed⟩
  exact eq_of_pattern_eq r hr q hq (((matchesWord_iff hq cw).1 hmatch).symm.trans hpat)

/-! ### The response word (R41, R42) -/

/-- The codes of R42 number the statuses in the order of their names, from 0. -/
theorem ofNat_statusCode (st : Status) : Status.ofNat (statusCode st).toNat = st := by
  cases st <;> rfl

theorem statusCode_injective : Function.Injective statusCode := by
  intro st st' h
  rw [← ofNat_statusCode st, h, ofNat_statusCode]

theorem responseWord_status (r : Response) : (responseWord r).extractLsb' 32 3 = statusCode r.status :=
  BitVec.extractLsb'_append_eq_left

theorem responseWord_data (r : Response) : (responseWord r).extractLsb' 0 32 = r.data :=
  BitVec.extractLsb'_append_eq_right

theorem responseWord_injective : Function.Injective responseWord := by
  intro r q h
  have hstatus : statusCode r.status = statusCode q.status := by
    rw [← responseWord_status, h, responseWord_status]
  have hdata : r.data = q.data := by
    rw [← responseWord_data, h, responseWord_data]
  cases r; cases q
  exact congrArg₂ Response.mk (statusCode_injective hstatus) hdata

/-- Settles O6: the word holds the status code over the data, and no two statuses share a code. -/
theorem responseWordFields : Obligations.ResponseWordFields :=
  ⟨fun r => ⟨responseWord_status r, responseWord_data r⟩, fun _ _ h => responseWord_injective h,
    rfl, rfl, rfl, rfl, rfl, rfl⟩

/-! ### The assembler's lines (R48, R49) -/

/-- A number in range is kept whole by its field (R38, R48). -/
theorem toNat_ofNat_of_lt {w n : Nat} (h : n < 2 ^ w) : (BitVec.ofNat w n).toNat = n :=
  (BitVec.toNat_ofNat n w).trans (Nat.mod_eq_of_lt h)

/-- A line that stands for the one event `e`, repeated. -/
theorem assemble_replicate {line : AsmLine} {e : HostEvent} (h : assembleLine line = [e]) (n : Nat) :
    assemble (List.replicate n line) = List.replicate n e := by
  rw [assemble, List.flatMap_replicate, h, List.flatten_replicate_singleton]

/-- Settles O7: each pseudo-instruction has the events of the lines it stands for. -/
theorem pseudoInstructionsExpand : Obligations.PseudoInstructionsExpand :=
  ⟨fun _ => rfl, rfl, rfl, fun n => (assemble_replicate rfl n).symm, rfl⟩

/-- Settles O8: the words and keys of the core lines. -/
theorem coreLinesBecomeEvents : Obligations.CoreLinesBecomeEvents :=
  ⟨fun _ _ => rfl, rfl, rfl,
    fun value hvalue => ⟨BitVec.ofNat 34 value, toNat_ofNat_of_lt hvalue, rfl⟩, rfl⟩

/-- The checks of R48 on a SEED line. -/
theorem seed_wellFormed_iff (len : Nat) (words : List Nat) :
    (AsmLine.seed len words).wellFormed = true ↔
      len < 2 ^ 32 ∧ (∀ w ∈ words, w < 2 ^ 32) ∧ words.length = len := by
  simp [AsmLine.wellFormed, fits32, and_assoc]

/-- Words in range read back from their key as the numbers written (R24, R48). -/
theorem toNat_keyRead_keyOfWords {words : List Nat} (hwords : ∀ w ∈ words, w < 2 ^ 32) {j : Nat}
    (hj : j < words.length) : (keyRead (keyOfWords (words.map (BitVec.ofNat 32))) j).toNat = words.getD j 0 := by
  rw [keyRead_keyOfWords, List.getD_map (f := BitVec.ofNat 32) (d := 0), List.getD_eq_getElem _ _ hj]
  exact toNat_ofNat_of_lt (hwords _ (List.getElem_mem hj))

/-- The host's duty on a command: the key of a SEED answers its reads (R107). -/
theorem eventDutiful_command_iff (cw : CommandWord) (key : KeySpace) :
    eventDutiful (.command cw key) = true ↔ ∀ len, decode cw = .seed len → answersAll key len.toNat = true := by
  rw [eventDutiful]
  cases decode cw <;> simp

/-- Settles O9: the line's word is the encoding of its SEED, and its key the words of its list. -/
theorem seedLineMeansItsWords : Obligations.SeedLineMeansItsWords := by
  intro len words hwf
  obtain ⟨hlen, hwords, hcount⟩ := (seed_wellFormed_iff len words).1 hwf
  have htoNat : (BitVec.ofNat 32 len).toNat = len := toNat_ofNat_of_lt hlen
  have hlength : (words.map (BitVec.ofNat 32)).length = len := (List.length_map _).trans hcount
  have hdecode := decode_encode (.seed (BitVec.ofNat 32 len))
  refine ⟨_, _, rfl, hdecode, htoNat, fun j hj => toNat_keyRead_keyOfWords hwords (hcount ▸ hj), ?_, ?_⟩
  · rw [eventDutiful_command_iff, hdecode]
    rintro _ ⟨⟩
    rw [htoNat, ← hlength]
    exact answersAll_keyOfWords _
  · exact keyOfWords_wf (hlength ▸ hlen.le)

/-- Settles O12: the word placed stands at the head of the host's events, so the step runs what it decodes to. -/
theorem stepRunsTableWord : Obligations.StepRunsTableWord := by
  intro s nbits w i hi
  cases hi
  exact stepRunsDecodedCommand _ _ _ _ (presentCommand_host ..)

/-! ### The response of a command (R41, R43, R88) -/

/-- Settles O44: the response of each effect of a completed command. -/
theorem responseTable : Obligations.ResponseTable := by
  intro i s t h
  obtain ⟨r, u, heff, rfl⟩ := effect_of_exec_next h
  refine ⟨r, ?_, ?_⟩
  · cases heff <;> simp
  · cases heff with
    | seeded len hlen => simp [hlen]
    | drawn hlive => simp [hlive]
    | absentNext habsent => simp [habsent]
    | emptySeed | released | absentRelease | reserved => simp

/-! ### Runs with a host that answers (R41, R107, R111, R112) -/

/-- A command completes unless it is a SEED whose key leaves a read unanswered (R107). -/
theorem exec_completes {i : Instr} {s : State}
    (hkey : ∀ len, i = .seed len → answersAll s.key len.toNat = true) : ∃ t, exec i s = .next t := by
  cases i with
  | seed len =>
    by_cases hlen : len = 0#32
    · exact ⟨_, if_pos hlen⟩
    · exact ⟨_, exec_seed_of_answered hlen (hkey len rfl)⟩
  | next =>
    obtain ⟨-, e⟩ | ⟨-, e⟩ := execNext_cases s <;> exact ⟨_, e⟩
  | release => exact ⟨_, rfl⟩
  | reserved => exact ⟨_, rfl⟩

/-- One step with a host that answers: it takes up the next event, if any, and responds if that is a command. -/
theorem step_of_hostDutiful {s : State} (h : HostDutiful s) :
    ∃ t, step s = .next t ∧ t.host = s.host.drop 1 ∧
      t.responses.length = s.responses.length + (s.host.take 1).countP isCommand := by
  obtain ⟨hr, e⟩ | ⟨rest, hr, e⟩ | ⟨cw, key, rest, hr, e⟩ := step_cases s
  · exact ⟨s, e, by simp [hr], by simp [hr]⟩
  · exact ⟨_, e, by simp [hr], by simp [hr, isCommand]⟩
  · have hduty := h (.command cw key) (hr ▸ List.mem_cons_self)
    obtain ⟨t, ht⟩ := exec_completes (s := { s with key := key, host := rest })
      ((eventDutiful_command_iff cw key).1 hduty)
    obtain ⟨-, hhost, -, -⟩ := commandFrames _ _ _ ht
    obtain ⟨r, hresp, -⟩ := responseTable _ _ _ ht
    exact ⟨t, e.trans ht, by simp [hr, hhost], by simp [hr, hresp, isCommand]⟩

/-- Settles O50, by induction on the number of steps: what the host will still do after a step keeps its duty. -/
theorem answeredRunsNeverStop : Obligations.AnsweredRunsNeverStop := by
  intro n
  induction n with
  | zero => exact fun s _ => ⟨s, rfl, rfl, rfl⟩
  | succ n ih =>
    intro s h
    obtain ⟨t, hstep, hhost, hresp⟩ := step_of_hostDutiful h
    have hduty : HostDutiful t := fun e he => h e (List.mem_of_mem_drop (hhost ▸ he))
    obtain ⟨u, hrun, hhost', hresp'⟩ := ih t hduty
    refine ⟨u, (runSteps_of_next hstep).trans hrun, ?_, ?_⟩
    · rw [hhost', hhost, List.drop_drop, Nat.add_comm]
    · rw [hresp', hresp, hhost, Nat.add_comm n 1, List.take_add, List.countP_append, Nat.add_assoc]

end Sys2Proof.Machine
end

section
/-! PROOFS. The seeding statements (40_seed.md): the words of each phase, its cursors, what the seeded state depends on,
and the walk around the ring that computes it. -/

namespace Sys2Proof.Machine

/-! ### The two outcomes of SEED that respond (R51, R57) -/

/-- Settles O16: LEN = 0 is refused before anything is read or written. -/
theorem emptySeedRefused : Obligations.EmptySeedRefused :=
  fun _ => raise_next.2 rfl

/-- Settles O17: the host answers, so SEED responds OK in `seedState`, whose phases and fields are those stated. -/
theorem seedRunsFourPhases : Obligations.SeedRunsFourPhases := by
  intro len s hlen hkey
  rw [exec_seed_of_answered hlen hkey]
  exact respond_next.2 rfl

/-- Settles O18: phase D writes word 0, which is therefore not the word of the all-zero array. -/
theorem seededArrayIsNotZero : Obligations.SeededArrayIsNotZero := by
  intro len s hlen hkey
  have hzero : readMT (seedState len.toNat s).mt 0 = 0x80000000#32 := readMT_writeMT_self _ 0 _
  refine ⟨_, exec_seed_of_answered hlen hkey, hzero, fun hmt => ?_, rfl, rfl⟩
  rw [show (seedState len.toNat s).mt = Vector.replicate 624 0#32 from hmt, readMT_of_lt _ (by decide),
    Vector.getElem_replicate] at hzero
  exact absurd hzero (by decide)

/-! ### Phase A (R52) -/

/-- Settles O20: phase A leaves the words of the linear initialisation, each made from the one before it. -/
theorem phaseAWords : Obligations.PhaseAWords := by
  intro mt
  refine ⟨readMT_phaseA mt (by decide), fun i hpos hle => ?_⟩
  obtain ⟨m, rfl⟩ := Nat.exists_eq_succ_of_ne_zero (Nat.pos_iff_ne_zero.1 hpos)
  rw [Nat.succ_sub_one, readMT_phaseA mt (n := m + 1) (by omega), readMT_phaseA mt (n := m) (by omega)]
  rfl

/-! ### One iteration of phase B or of phase C (R53, R54, R56) -/

/-- What phases B and C do alike in an iteration: a word is written at the cursor `i`, then `i` advances. -/
def writeAdvance (v : Word) (c : SeedSweep) : SeedSweep := advanceI { c with mt := writeMT c.mt c.i v }

/-- The word phase B writes over `x`, with `p` the word before it (R53). -/
def mixedWord (key : KeySpace) (j : Nat) (x p : Word) : Word :=
  (x ^^^ (foldTop p * Config.fMix)) + keyRead key j + BitVec.ofNat 32 j

/-- The word phase C writes at index `k` over `x`, with `p` the word before it (R56). -/
def decorrelatedWord (k : Nat) (x p : Word) : Word :=
  (x ^^^ (foldTop p * Config.fDec)) - BitVec.ofNat 32 k

theorem advanceI_mt (c : SeedSweep) :
    (advanceI c).mt = if c.i + 1 = 624 then writeMT c.mt 0 (readMT c.mt 623) else c.mt := by
  unfold advanceI; split <;> rfl

theorem phaseBStep_mt (key : KeySpace) (len : Nat) (c : SeedSweep) :
    (phaseBStep key len c).mt =
      (writeAdvance (mixedWord key c.j (readMT c.mt c.i) (readMT c.mt (c.i - 1))) c).mt := by
  rw [phaseBStep, writeAdvance, advanceJ_mt, advanceI_mt, advanceI_mt]
  rfl

@[simp] theorem phaseBStep_i (key : KeySpace) (len : Nat) (c : SeedSweep) :
    (phaseBStep key len c).i = if c.i + 1 = 624 then 1 else c.i + 1 :=
  advanceI_i (mixKeyWord key c)

theorem phaseCStep_eq (c : SeedSweep) :
    phaseCStep c = writeAdvance (decorrelatedWord c.i (readMT c.mt c.i) (readMT c.mt (c.i - 1))) c := rfl

@[simp] theorem phaseCStep_i (c : SeedSweep) : (phaseCStep c).i = if c.i + 1 = 624 then 1 else c.i + 1 :=
  advanceI_i (decorrelateWord c)

@[simp] theorem writeAdvance_i (v : Word) (c : SeedSweep) :
    (writeAdvance v c).i = if c.i + 1 = 624 then 1 else c.i + 1 :=
  advanceI_i _

/-- The advance of `i` keeps every word but for the copy into word 0 at the wrap. -/
theorem readMT_advanceI (c : SeedSweep) {k : Nat} (hk : k ≤ 623) (hcopy : k = 0 → c.i ≠ 623) :
    readMT (advanceI c).mt k = readMT c.mt k := by
  rw [advanceI_mt]
  split
  · exact readMT_writeMT_ne _ _ (by omega)
  · rfl

/-- The word written stands at the cursor, which was in 1..623. -/
theorem readMT_writeAdvance_self (v : Word) {c : SeedSweep} (hpos : 1 ≤ c.i) (hle : c.i ≤ 623) :
    readMT (writeAdvance v c).mt c.i = v := by
  rw [writeAdvance, readMT_advanceI _ hle (by omega), readMT_writeMT_self]

/-- The other words are kept, word 0 if the cursor does not wrap. -/
theorem readMT_writeAdvance_ne (v : Word) {c : SeedSweep} (hle : c.i ≤ 623) {k : Nat} (hk : k ≤ 623)
    (hne : k ≠ c.i) (hcopy : k = 0 → c.i ≠ 623) : readMT (writeAdvance v c).mt k = readMT c.mt k := by
  have hadvance := readMT_advanceI { c with mt := writeMT c.mt c.i v } hk hcopy
  exact hadvance.trans (readMT_writeMT_ne _ _ (by omega))

/-- A write to word 623 is copied into word 0 (R54). -/
theorem readMT_writeAdvance_zero (v : Word) {c : SeedSweep} (h : c.i = 623) :
    readMT (writeAdvance v c).mt 0 = v := by
  rw [writeAdvance, advanceI_mt, if_pos (congrArg (· + 1) h), readMT_writeMT_self, ← h, readMT_writeMT_self]

/-- After a write to word 623 the words 0 and 623 are the same. -/
theorem readMT_writeAdvance_copy (v : Word) {c : SeedSweep} (h : c.i = 623) :
    readMT (writeAdvance v c).mt 0 = readMT (writeAdvance v c).mt 623 := by
  have hself := readMT_writeAdvance_self v (c := c) (by omega) (by omega)
  rw [readMT_writeAdvance_zero v h, ← h, hself]

/-- The word before the cursor after an iteration is the one it wrote, also at the wrap (R32, R54). -/
theorem readMT_writeAdvance_pred (v : Word) {c : SeedSweep} (hpos : 1 ≤ c.i) (hle : c.i ≤ 623) :
    readMT (writeAdvance v c).mt ((writeAdvance v c).i - 1) = v := by
  rw [writeAdvance_i]
  split
  next h => exact readMT_writeAdvance_zero v (Nat.succ_injective h)
  next => exact readMT_writeAdvance_self v hpos hle

theorem readMT_phaseCStep_self {c : SeedSweep} (hpos : 1 ≤ c.i) (hle : c.i ≤ 623) :
    readMT (phaseCStep c).mt c.i = decorrelatedWord c.i (readMT c.mt c.i) (readMT c.mt (c.i - 1)) :=
  readMT_writeAdvance_self _ hpos hle

theorem readMT_phaseCStep_ne {c : SeedSweep} (hle : c.i ≤ 623) {k : Nat} (hk : k ≤ 623) (hne : k ≠ c.i)
    (hcopy : k = 0 → c.i ≠ 623) : readMT (phaseCStep c).mt k = readMT c.mt k :=
  readMT_writeAdvance_ne _ hle hk hne hcopy

/-- Settles O21: the write at `i`, then the advances. -/
theorem phaseBIteration : Obligations.PhaseBIteration := by
  intro key len c hpos hle
  rw [phaseBStep_mt, phaseBStep_i, phaseBStep_j]
  refine ⟨readMT_writeAdvance_self _ hpos hle,
    fun k hkpos hk hne => readMT_writeAdvance_ne _ hle hk hne (by omega), ?_, ?_, rfl⟩
  · split
    next h => exact readMT_writeAdvance_copy _ h
    next h => exact readMT_writeAdvance_ne _ hle (Nat.zero_le _) (by omega) fun _ => h
  · simp only [Nat.reduceEqDiff]

/-! ### The cursor `i` over many iterations (R54, R58) -/

/-- A cursor that advances as R54 says goes round 1..623. -/
theorem repeatTimes_advance_i {f : SeedSweep → SeedSweep}
    (hf : ∀ c, (f c).i = if c.i + 1 = 624 then 1 else c.i + 1) {c : SeedSweep} {a : Nat} (hc : c.i = 1 + a % 623)
    (n : Nat) : (repeatTimes n f c).i = 1 + (a + n) % 623 := by
  refine repeatTimes_induct (fun n (c : SeedSweep) => c.i = 1 + (a + n) % 623) hc (fun n c hn => ?_) n
  rw [hf, hn, ← Nat.add_assoc, succ_mod_eq_ite (by decide)]
  split <;> split <;> omega

theorem repeatTimes_phaseBStep_i (key : KeySpace) (len n : Nat) (mt : StateArray) :
    (repeatTimes n (phaseBStep key len) ⟨mt, 1, 0, []⟩).i = 1 + n % 623 := by
  rw [repeatTimes_advance_i (phaseBStep_i key len) (a := 0) rfl, Nat.zero_add]

/-- Phase C makes one round of 623 iterations, so the cursor ends where it began (R56). -/
theorem phaseC_i {c : SeedSweep} (hpos : 1 ≤ c.i) (hle : c.i ≤ 623) : (phaseC c).i = c.i := by
  rw [phaseC, repeatTimes_advance_i phaseCStep_i (a := c.i - 1) (by omega)]
  omega

/-- Settles O22: `i` goes round 1..623 and `j` round 0..LEN - 1, one place each iteration. -/
theorem phaseBCursors : Obligations.PhaseBCursors := by
  intro key len n mt hlen
  obtain ⟨hj, hreads⟩ := repeatTimes_phaseBStep_j_reads key hlen mt 1 n
  exact ⟨repeatTimes_phaseBStep_i key len n mt, hj, hreads⟩

/-- Settles O23: the cursor after `max(624, LEN)` iterations; the listed values are arithmetic. -/
theorem cursorCarriesIntoPhaseC : Obligations.CursorCarriesIntoPhaseC := by
  intro key len mt _
  have hi : (phaseB key len mt).i = 1 + max 624 len % 623 := repeatTimes_phaseBStep_i key len _ mt
  refine ⟨hi, phaseC_i (by omega) (by omega), ?_⟩
  rw [hi]
  omega

/-! ### The words of phase C (R56) -/

/-- A loop split in two. -/
theorem repeatTimes_add {σ : Type} (m n : Nat) (f : σ → σ) (s : σ) :
    repeatTimes (m + n) f s = repeatTimes n f (repeatTimes m f s) := by
  induction n with
  | zero => rw [repeatTimes_zero, Nat.add_zero]
  | succ n ih => rw [← Nat.add_assoc, repeatTimes_succ, repeatTimes_succ, ih]

/-- A run of phase C that stays below the wrap rewrites the words it passes, each from its old value and the word before
it, and keeps the others, word 0 among them. -/
theorem repeatTimes_phaseCStep_words {c : SeedSweep} (hpos : 1 ≤ c.i) (n : Nat) (hle : c.i + n ≤ 623) :
    (repeatTimes n phaseCStep c).i = c.i + n ∧
    (∀ k, c.i ≤ k → k < c.i + n → readMT (repeatTimes n phaseCStep c).mt k =
      decorrelatedWord k (readMT c.mt k) (readMT (repeatTimes n phaseCStep c).mt (k - 1))) ∧
    ∀ k ≤ 623, k < c.i ∨ c.i + n ≤ k → readMT (repeatTimes n phaseCStep c).mt k = readMT c.mt k := by
  induction n with
  | zero =>
    rw [repeatTimes_zero]
    exact ⟨rfl, fun k hki hkn => absurd hki (Nat.not_le.2 hkn), fun _ _ _ => rfl⟩
  | succ n ih =>
    obtain ⟨hi, hnew, hold⟩ := ih (by omega)
    rw [repeatTimes_succ]
    generalize repeatTimes n phaseCStep c = d at hi hnew hold ⊢
    have hkept : ∀ k ≤ 623, k ≠ d.i → readMT (phaseCStep d).mt k = readMT d.mt k := fun k hk hne =>
      readMT_phaseCStep_ne (by omega) hk hne (by omega)
    refine ⟨?_, fun k hki hkn => ?_, fun k hk hout => ?_⟩
    · rw [phaseCStep_i, if_neg (by omega), hi, Nat.add_assoc]
    · rw [hkept (k - 1) (by omega) (by omega)]
      obtain hlt | rfl := Nat.lt_or_eq_of_le (show k ≤ d.i by omega)
      · rw [hkept k (by omega) (by omega), hnew k hki (by omega)]
      · rw [readMT_phaseCStep_self (by omega) (by omega), hold d.i (by omega) (by omega)]
    · rw [hkept k hk (by omega), hold k hk (by omega)]

/-- From its cursor up to word 623, which also becomes word 0, phase C rewrites the words of the ring, and keeps those
below the cursor; then it stands at word 1. -/
theorem repeatTimes_phaseCStep_to_wrap {c : SeedSweep} (hpos : 1 ≤ c.i) (hle : c.i ≤ 623) :
    (repeatTimes (624 - c.i) phaseCStep c).i = 1 ∧
    (∀ k, c.i ≤ k → k ≤ 623 → readMT (repeatTimes (624 - c.i) phaseCStep c).mt k =
      decorrelatedWord k (readMT c.mt k)
        (if k = c.i then readMT c.mt (c.i - 1) else readMT (repeatTimes (624 - c.i) phaseCStep c).mt (k - 1))) ∧
    readMT (repeatTimes (624 - c.i) phaseCStep c).mt 0 = readMT (repeatTimes (624 - c.i) phaseCStep c).mt 623 ∧
    ∀ k, 1 ≤ k → k < c.i → readMT (repeatTimes (624 - c.i) phaseCStep c).mt k = readMT c.mt k := by
  obtain ⟨hi, hnew, hold⟩ := repeatTimes_phaseCStep_words hpos (623 - c.i) (by omega)
  rw [Nat.succ_sub hle, repeatTimes_succ]
  generalize repeatTimes (623 - c.i) phaseCStep c = d at hi hnew hold ⊢
  have hlast : d.i = 623 := by omega
  have hkept : ∀ k, 1 ≤ k → k < 623 → readMT (phaseCStep d).mt k = readMT d.mt k := fun k hkpos hk =>
    readMT_phaseCStep_ne (by omega) (by omega) (by omega) (by omega)
  have hword : ∀ k, c.i ≤ k → k ≤ 623 →
      readMT (phaseCStep d).mt k = decorrelatedWord k (readMT c.mt k) (readMT d.mt (k - 1)) := by
    intro k hki hk
    obtain hlt | rfl := Nat.lt_or_eq_of_le (show k ≤ d.i by omega)
    · rw [hkept k (by omega) (by omega), hnew k hki (by omega)]
    · rw [readMT_phaseCStep_self (by omega) (by omega), hold d.i (by omega) (by omega)]
  refine ⟨by rw [phaseCStep_i, if_pos (by omega)], fun k hki hk => ?_, readMT_writeAdvance_copy _ hlast,
    fun k hkpos hk => ?_⟩
  · rw [hword k hki hk]
    split
    next h => rw [h, hold (c.i - 1) (by omega) (by omega)]
    next h => rw [hkept (k - 1) (by omega) (by omega)]
  · rw [hkept k hkpos (by omega), hold k (by omega) (by omega)]

/-- Settles O24: phase C runs from its cursor to the wrap, then from word 1 to the word below its cursor. -/
theorem phaseCWords : Obligations.PhaseCWords := by
  intro c hpos hle
  have hsplit : phaseC c = repeatTimes (c.i - 1) phaseCStep (repeatTimes (624 - c.i) phaseCStep c) := by
    rw [← repeatTimes_add, phaseC, show 624 - c.i + (c.i - 1) = 623 by omega]
  obtain ⟨hi, hnew, hcopy, hold⟩ := repeatTimes_phaseCStep_to_wrap hpos hle
  generalize repeatTimes (624 - c.i) phaseCStep c = d at hsplit hi hnew hcopy hold
  obtain ⟨-, hnew', hold'⟩ := repeatTimes_phaseCStep_words (c := d) (by omega) (c.i - 1) (by omega)
  rw [← hsplit, hi] at hnew' hold'
  have hcopy' : readMT (phaseC c).mt 0 = readMT (phaseC c).mt 623 := by
    rw [hold' 0 (by omega) (by omega), hold' 623 (by omega) (by omega), hcopy]
  refine ⟨fun k hkpos hk => ⟨_, rfl, ?_⟩, hcopy', phaseC_i hpos hle⟩
  obtain hki | hki := Nat.lt_or_ge k c.i
  · have hpred : (if k = 1 then readMT (phaseC c).mt 623 else readMT (phaseC c).mt (k - 1)) =
        readMT (phaseC c).mt (k - 1) := by
      split
      next h => rw [h, Nat.sub_self, hcopy']
      next => rfl
    rw [hnew' k hkpos (by omega), hold k hkpos hki, if_neg (by omega), hpred]
    rfl
  · have hpred : k ≠ c.i → readMT (phaseC c).mt (k - 1) = readMT d.mt (k - 1) := fun hne =>
      hold' (k - 1) (by omega) (by omega)
    rw [hold' k hk (by omega), hnew k hki hk]
    split
    next => rfl
    next h => rw [if_neg (by omega), hpred h]; rfl

/-! ### What the seeded state depends on (R59, R60, R62) -/

/-- Phase B reads the key below LEN alone (R25). -/
theorem phaseB_congr {key key' : KeySpace} {len : Nat} (hlen : 0 < len)
    (h : ∀ j < len, keyRead key j = keyRead key' j) (mt : StateArray) : phaseB key len mt = phaseB key' len mt := by
  have hstep : ∀ c : SeedSweep, c.j < len → phaseBStep key len c = phaseBStep key' len c := fun c hj => by
    simp only [phaseBStep, mixKeyWord, h c.j hj]
  have hrun : ∀ n, repeatTimes n (phaseBStep key len) ⟨mt, 1, 0, []⟩ =
      repeatTimes n (phaseBStep key' len) ⟨mt, 1, 0, []⟩ := by
    intro n
    induction n with
    | zero => rw [repeatTimes_zero, repeatTimes_zero]
    | succ n ih =>
      have hj := (repeatTimes_phaseBStep_j_reads key hlen mt 1 n).1
      rw [repeatTimes_succ, repeatTimes_succ, ← ih]
      exact hstep _ (hj.trans_lt (Nat.mod_lt n hlen))
  rw [phaseB, phaseB, hrun]

theorem toNat_pos_of_ne_zero {len : Word} (hlen : len ≠ 0#32) : 0 < len.toNat :=
  Nat.pos_of_ne_zero fun h => hlen (BitVec.eq_of_toNat_eq h)

/-- The seeded array is a function of LEN and the key below LEN. -/
theorem seedState_mt_congr {s s' : State} {len : Nat} (hlen : 0 < len)
    (h : ∀ j < len, keyRead s.key j = keyRead s'.key j) : (seedState len s).mt = (seedState len s').mt := by
  rw [seedState_mt, seedState_mt, phaseA_eq_phaseA s.mt s'.mt, phaseB_congr hlen h]

/-- Settles O26: phase A forgets the array, and phase B reads the key below LEN alone. -/
theorem seedForgetsPriorState : Obligations.SeedForgetsPriorState := by
  intro len s s' hlen hkey hkey' hwords
  have hmt := seedState_mt_congr (toNat_pos_of_ne_zero hlen) hwords
  refine ⟨_, _, exec_seed_of_answered hlen hkey, exec_seed_of_answered hlen hkey', hmt, ?_, ?_⟩
  · simp only [seedState_idx]
  · simp only [seedState_live]

/-! ### Engines that answer alike (R59) -/

/-- Two engines that hold the same generator: the same but for the traffic of their ports, the model's own counter, and
the contents while absent (R10, R22). `SameView` without the host, the responses and the key reads. -/
def SameEngine (s s' : State) : Prop :=
  s.live = s'.live ∧ (s.live = true → s.mt = s'.mt ∧ s.idx = s'.idx) ∧ s.key = s'.key

/-- A command that has an effect completes, with that effect and its response. -/
theorem exec_of_effect {i : Instr} {s u : State} {r : Response} (h : Effect s i r u) :
    exec i s = .next { u with responses := u.responses ++ [r] } := by
  cases h with
  | emptySeed => rfl
  | seeded len hlen hkey => exact exec_seed_of_answered hlen hkey
  | drawn hlive => exact if_pos hlive
  | absentNext habsent => exact exec_next_of_absent habsent
  | released hlive => exact congrArg (respond .ok 0#32) (if_pos hlive)
  | absentRelease habsent => exact congrArg (respond .ok 0#32) (if_neg (by simp [habsent]))
  | reserved => rfl

/-- A command's own effect gives no response: that comes after it (R41). -/
theorem effect_responses {i : Instr} {s u : State} {r : Response} (h : Effect s i r u) :
    u.responses = s.responses := by
  cases h <;> simp

/-- A SEED makes engines of the same key the same (R59). -/
theorem sameEngine_seedState {s s' : State} (len : Nat) (hkey : s.key = s'.key) :
    SameEngine (seedState len s) (seedState len s') := by
  simp only [SameEngine, seedState_live, seedState_mt, seedState_idx, seedState_key, phaseA_eq_phaseA s.mt s'.mt,
    hkey, and_self, implies_true]

theorem sameEngine_schedule {s s' : State} (h : SameEngine s s') (hlive : s.live = true) :
    SameEngine (schedule s) (schedule s') := by
  obtain ⟨hl, hreg, hkey⟩ := h
  obtain ⟨hmt, hidx⟩ := hreg hlive
  by_cases he : s.idx.val = 624
  · rw [schedule_exhausted he, schedule_exhausted (hidx ▸ he)]
    exact ⟨hl, fun _ => ⟨congrArg twist hmt, rfl⟩, hkey⟩
  · rw [schedule_fresh he, schedule_fresh (hidx ▸ he)]
    exact ⟨hl, hreg, hkey⟩

/-- The same engines take a command alike: the same response, and the same engines after it. -/
theorem sameEngine_effect {i : Instr} {s s' u : State} {r : Response} (h : SameEngine s s') (heff : Effect s i r u) :
    ∃ u', Effect s' i r u' ∧ SameEngine u u' := by
  have ⟨hl, hreg, hkey⟩ := h
  cases heff with
  | emptySeed => exact ⟨s', .emptySeed, h⟩
  | seeded len hlen hans => exact ⟨_, .seeded len hlen (hkey ▸ hans), sameEngine_seedState _ hkey⟩
  | drawn hlive =>
    obtain ⟨hl', hreg', hkey'⟩ := sameEngine_schedule h hlive
    obtain ⟨hmt, hidx⟩ := hreg' (by rwa [schedule_live])
    have hdraw : rawWord (schedule s) = rawWord (schedule s') := by rw [rawWord, hmt, hidx, rawWord]
    rw [hdraw]
    exact ⟨_, .drawn (hl ▸ hlive), hl', fun _ => ⟨hmt, by simp only [advanceIdx, hidx]⟩, hkey'⟩
  | absentNext habsent => exact ⟨s', .absentNext (hl ▸ habsent), h⟩
  | released hlive => exact ⟨_, .released (hl ▸ hlive), rfl, nofun, hkey⟩
  | absentRelease habsent => exact ⟨s', .absentRelease (hl ▸ habsent), h⟩
  | reserved => exact ⟨s', .reserved, h⟩

/-- A run of commands goes on from the state its first command leaves. -/
theorem runCommands_of_next {i : Instr} {is : List Instr} {s t : State} (h : exec i s = .next t) :
    runCommands (i :: is) s = runCommands is t := by
  simp only [runCommands, h]

/-- The first command of a run that completes has completed. -/
theorem runCommands_cons_next {i : Instr} {is : List Instr} {s t : State} (h : runCommands (i :: is) s = .next t) :
    ∃ u, exec i s = .next u ∧ runCommands is u = .next t := by
  rw [runCommands] at h
  cases e : exec i s with
  | next u => exact ⟨u, rfl, by simpa only [e] using h⟩
  | fault f => simp [e] at h
  | refused r => simp [e] at h

/-- The same engines run a sequence of commands alike, with the same new responses. -/
theorem sameEngine_runCommands : ∀ {is : List Instr} {s s' t : State},
    SameEngine s s' → runCommands is s = .next t →
    ∃ t' new, runCommands is s' = .next t' ∧ t.responses = s.responses ++ new ∧ t'.responses = s'.responses ++ new
  | [], s, s', t, _, hrun => by
    cases hrun
    exact ⟨s', [], rfl, (List.append_nil _).symm, (List.append_nil _).symm⟩
  | i :: is, s, s', t, h, hrun => by
    obtain ⟨v, hexec, hrest⟩ := runCommands_cons_next hrun
    obtain ⟨r, u, heff, rfl⟩ := effect_of_exec_next hexec
    obtain ⟨u', heff', hu⟩ := sameEngine_effect h heff
    obtain ⟨t', new, hrun', hresp, hresp'⟩ := sameEngine_runCommands
      (s := { u with responses := u.responses ++ [r] }) (s' := { u' with responses := u'.responses ++ [r] }) hu hrest
    refine ⟨t', r :: new, (runCommands_of_next (exec_of_effect heff')).trans hrun', ?_, ?_⟩
    · rw [hresp, effect_responses heff, List.append_assoc]; rfl
    · rw [hresp', effect_responses heff', List.append_assoc]; rfl

/-- Settles O27: the SEED makes the engines the same, and the same engines answer alike. -/
theorem sameSeedSameResponses : Obligations.SameSeedSameResponses := by
  intro len is s s' t hlen hkey hrun
  obtain ⟨v, hexec, hrest⟩ := runCommands_cons_next hrun
  obtain ⟨r, u, heff, rfl⟩ := effect_of_exec_next hexec
  cases heff with
  | emptySeed => exact absurd rfl hlen
  | seeded _ _ hans =>
    have hu := sameEngine_seedState len.toNat hkey
    have ⟨hlive, hreg, _⟩ := hu
    obtain ⟨hmt, hidx⟩ := hreg rfl
    have hexec' := exec_seed_of_answered (s := s') hlen (hkey ▸ hans)
    obtain ⟨t', new, hrun', hresp, hresp'⟩ := sameEngine_runCommands
      (s := { seedState len.toNat s with responses := s.responses ++ [⟨.ok, 0#32⟩] })
      (s' := { seedState len.toNat s' with responses := s'.responses ++ [⟨.ok, 0#32⟩] }) hu hrest
    refine ⟨_, _, t', hexec, hexec', hmt, hidx, hlive, (runCommands_of_next hexec').trans hrun', ?_⟩
    rw [hresp, hresp', List.append_assoc, List.append_assoc, List.drop_left, List.drop_left]

/-! ### The walk around the ring of words 1..623 (R50, R53, R54, R56) -/

/-- The words 1..623 of the array. -/
def ringWords (mt : StateArray) : List Word := mt.toList.tail

theorem toList_eq_cons_ringWords (mt : StateArray) : mt.toList = readMT mt 0 :: ringWords mt := by
  have hne : mt.toList ≠ [] := List.ne_nil_of_length_pos (by rw [Vector.length_toList]; decide)
  rw [ringWords, ← List.cons_head_tail hne, List.tail_cons, List.head_eq_getElem, Vector.getElem_toList, readMT_of_lt]

@[simp] theorem length_ringWords (mt : StateArray) : (ringWords mt).length = 623 := by
  rw [ringWords, List.length_tail, Vector.length_toList]

theorem getElem_ringWords (mt : StateArray) {k : Nat} (hk : k < (ringWords mt).length) :
    (ringWords mt)[k] = readMT mt (k + 1) := by
  have hlt : k + 1 < 624 := by rw [length_ringWords] at hk; omega
  rw [readMT_of_lt mt hlt]
  exact (List.getElem_tail hk).trans (Vector.getElem_toList _)

/-- A list of 623 words that reads as the words 1..623 of the array is the ring. -/
theorem ringWords_eq_of_getElem {mt : StateArray} {ws : List Word} (hlen : ws.length = 623)
    (h : ∀ k (hk : k < ws.length), k < 623 → readMT mt (k + 1) = ws[k]) : ringWords mt = ws := by
  refine List.ext_getElem (by rw [length_ringWords, hlen]) fun k hk hk' => ?_
  rw [getElem_ringWords]
  exact h k hk' (hlen ▸ hk')

/-- A write to word 0 leaves the ring. -/
theorem ringWords_writeMT_zero (mt : StateArray) (v : Word) : ringWords (writeMT mt 0 v) = ringWords mt := by
  refine ringWords_eq_of_getElem (length_ringWords mt) fun k _ hk => ?_
  rw [readMT_writeMT_ne mt v (by omega), getElem_ringWords]

/-- An iteration writes the ring at its cursor. -/
theorem ringWords_writeAdvance (v : Word) {c : SeedSweep} (hpos : 1 ≤ c.i) (hle : c.i ≤ 623) :
    ringWords (writeAdvance v c).mt = (ringWords c.mt).set (c.i - 1) v := by
  refine ringWords_eq_of_getElem (by rw [List.length_set, length_ringWords]) fun k _ hk => ?_
  rw [List.getElem_set, getElem_ringWords]
  split
  next h => rw [show k + 1 = c.i by omega, readMT_writeAdvance_self v hpos hle]
  next h => exact readMT_writeAdvance_ne v hle (by omega) (by omega) (by omega)

/-- The words of the linear initialisation from index `i + 1` on (R52). -/
theorem linearWords_eq (n i : Nat) :
    linearWords n (i + 1) (linearWord i) = (List.range n).map fun k => linearWord (i + k + 1) := by
  induction n generalizing i with
  | zero => rfl
  | succ n ih =>
    rw [List.range_succ_eq_map, List.map_cons, List.map_map]
    refine congrArg (linearWord (i + 1) :: ·) ((ih (i + 1)).trans ?_)
    refine List.map_congr_left fun k _ => ?_
    rw [Function.comp, Nat.succ_eq_add_one, Nat.add_right_comm i 1 k, Nat.add_assoc i k 1]

theorem ringWords_phaseA (mt : StateArray) : ringWords (phaseA mt) = linearWords 623 1 Config.init0 := by
  have hlinear : linearWords 623 1 Config.init0 = _ := linearWords_eq 623 0
  rw [hlinear]
  refine ringWords_eq_of_getElem (by rw [List.length_map, List.length_range]) fun k _ hk => ?_
  rw [List.getElem_map, List.getElem_range, readMT_phaseA mt (by omega), Nat.zero_add]

/-- The sweep stands on the ring between the words `walked`, newest first, and the words `todo`, and `prev` is the word
written last. -/
structure OnRing (mt : StateArray) (i : Nat) (prev : Word) (walked todo : List Word) : Prop where
  cursor : i = walked.length + 1
  words : ringWords mt = walked.reverse ++ todo
  ahead : todo ≠ []
  before : readMT mt (i - 1) = prev

namespace OnRing

variable {mt : StateArray} {i : Nat} {c : SeedSweep} {prev x y : Word} {walked todo rest : List Word}

theorem length_add_length (h : OnRing mt i prev walked todo) : walked.length + todo.length = 623 := by
  rw [← length_ringWords mt, h.words, List.length_append, List.length_reverse]

theorem cursor_pos (h : OnRing mt i prev walked todo) : 1 ≤ i :=
  h.cursor ▸ Nat.le_add_left 1 _

theorem cursor_le (h : OnRing mt i prev walked todo) : i ≤ 623 := by
  rw [h.cursor, ← h.length_add_length]
  exact Nat.add_le_add_left (List.length_pos_iff.2 h.ahead) _

/-- The word at the cursor is the first of those ahead. -/
theorem readMT_cursor (h : OnRing c.mt c.i prev walked (x :: rest)) : readMT c.mt c.i = x := by
  have hcur := h.cursor
  have hle := h.cursor_le
  have hlt : walked.length < (ringWords c.mt).length := by rw [length_ringWords]; omega
  rw [hcur, ← getElem_ringWords c.mt hlt, List.getElem_of_eq h.words, List.getElem_append_right (by simp)]
  simp

/-- The ring after a write at the cursor. -/
theorem words_writeAdvance (v : Word) (h : OnRing c.mt c.i prev walked (x :: rest)) :
    ringWords (writeAdvance v c).mt = (v :: walked).reverse ++ rest := by
  rw [ringWords_writeAdvance v h.cursor_pos h.cursor_le, h.words, h.cursor]
  simp [List.set_append_right]

/-- An iteration with a word left beyond the cursor goes on to it. -/
theorem writeAdvance_next (v : Word) (h : OnRing c.mt c.i prev walked (x :: y :: rest)) :
    OnRing (writeAdvance v c).mt (writeAdvance v c).i v (v :: walked) (y :: rest) where
  cursor := by
    have hlen := h.length_add_length
    have hcur := h.cursor
    simp only [List.length_cons] at hlen ⊢
    rw [writeAdvance_i, if_neg (by omega), hcur]
  words := h.words_writeAdvance v
  ahead := List.cons_ne_nil _ _
  before := readMT_writeAdvance_pred v h.cursor_pos h.cursor_le

/-- An iteration at the last word of the ring goes back to its first. -/
theorem writeAdvance_wrap (v : Word) (h : OnRing c.mt c.i prev walked [x]) :
    OnRing (writeAdvance v c).mt (writeAdvance v c).i v [] (v :: walked).reverse where
  cursor := by
    have hlen := h.length_add_length
    have hcur := h.cursor
    simp only [List.length_cons, List.length_nil] at hlen ⊢
    rw [writeAdvance_i, if_pos (by omega)]
  words := by rw [h.words_writeAdvance v, List.append_nil]; rfl
  ahead := by simp
  before := readMT_writeAdvance_pred v h.cursor_pos h.cursor_le

end OnRing

/-- `repeat` by its first run. -/
theorem repeatTimes_succ_apply {σ : Type} (n : Nat) (f : σ → σ) (s : σ) :
    repeatTimes (n + 1) f s = repeatTimes n f (f s) := by
  simp only [repeatTimes]

/-- Iterations of phase C are the walk of `decorrelateRing`. -/
theorem ringWords_repeatTimes_phaseCStep (n : Nat) {c : SeedSweep} {prev : Word} {walked todo : List Word}
    (h : OnRing c.mt c.i prev walked todo) :
    ringWords (repeatTimes n phaseCStep c).mt = decorrelateRing n (walked.length + 1) prev walked todo := by
  induction n generalizing c prev walked todo with
  | zero => rw [repeatTimes_zero, h.words, decorrelateRing]
  | succ n ih =>
    obtain ⟨x, rest, rfl⟩ := List.exists_cons_of_ne_nil h.ahead
    rw [repeatTimes_succ_apply, phaseCStep_eq, h.readMT_cursor, h.before, h.cursor]
    cases rest with
    | nil => exact ih (h.writeAdvance_wrap _)
    | cons y ys => exact ih (h.writeAdvance_next _)

/-- Iterations of phase B, and phase C after them, are the walk of `mixRing`. -/
theorem ringWords_phaseC_repeatTimes_phaseBStep (key : KeySpace) (len n : Nat) {c : SeedSweep} {prev : Word}
    {walked todo : List Word} (h : OnRing c.mt c.i prev walked todo) :
    ringWords (phaseC (repeatTimes n (phaseBStep key len) c)).mt =
      mixRing key len n (walked.length + 1) c.j prev walked todo := by
  induction n generalizing c prev walked todo with
  | zero => rw [repeatTimes_zero, phaseC, ringWords_repeatTimes_phaseCStep 623 h, mixRing]
  | succ n ih =>
    obtain ⟨x, rest, rfl⟩ := List.exists_cons_of_ne_nil h.ahead
    have hmt := phaseBStep_mt key len c
    have hi : (phaseBStep key len c).i = (writeAdvance (mixedWord key c.j x prev) c).i := by
      rw [phaseBStep_i, writeAdvance_i]
    rw [h.readMT_cursor, h.before] at hmt
    rw [repeatTimes_succ_apply]
    cases rest with
    | nil =>
      rw [ih (hmt ▸ hi ▸ h.writeAdvance_wrap _), phaseBStep_j]
      rfl
    | cons y ys =>
      rw [ih (hmt ▸ hi ▸ h.writeAdvance_next _), phaseBStep_j]
      rfl

/-- Phase B starts on the ring at word 1, with nothing walked. -/
theorem onRing_phaseA (mt : StateArray) :
    OnRing (phaseA mt) 1 Config.init0 [] (linearWords 623 1 Config.init0) where
  cursor := rfl
  words := ringWords_phaseA mt
  ahead := List.cons_ne_nil _ _
  before := readMT_phaseA mt (by decide)

/-- Settles O28: word 0 is forced, and the ring is walked by phases B and C from the words of phase A. -/
theorem seedListAgrees : Obligations.SeedListAgrees := by
  intro len s hlen hkey
  refine ⟨_, exec_seed_of_answered hlen hkey, ?_⟩
  have hring := ringWords_phaseC_repeatTimes_phaseBStep s.key len.toNat (max 624 len.toNat)
    (c := ⟨phaseA s.mt, 1, 0, []⟩) (onRing_phaseA s.mt)
  rw [toList_eq_cons_ringWords, seedState_mt, readMT_writeMT_self, ringWords_writeMT_zero, phaseB, hring]
  rfl

end Sys2Proof.Machine
end

section
/-! PROOFS. The twist statements (41_twist.md): the mix bit by bit, which operands of the pass are old and which are new,
its three-range form and its list form, and the counting law of the scheduler. -/

namespace Sys2Proof.Machine

/-! ### The twist mix (R65, R66) -/

/-- The combined word: bit 31 of `u`, bits 30..0 of `v` (R65). -/
theorem combine_eq_append (u v : Word) :
    combine u v = (u.extractLsb' 31 1 ++ v.extractLsb' 0 31 : BitVec 32) := by
  have hhi : ∀ n : Fin 32, (Config.hiMask).getLsbD n = decide (n.val = 31) := by decide
  have hlo : ∀ n : Fin 32, (Config.loMask).getLsbD n = decide (n.val < 31) := by decide
  refine BitVec.eq_of_getLsbD_eq fun n hn => ?_
  rw [combine, BitVec.getLsbD_or, BitVec.getLsbD_and, BitVec.getLsbD_and, hhi ⟨n, hn⟩, hlo ⟨n, hn⟩,
    BitVec.getLsbD_append]
  by_cases h : n < 31
  · simp [h, Nat.ne_of_lt h]
  · obtain rfl : n = 31 := by omega
    simp

/-- The choice depends on the low bit of `v` alone (R65). -/
theorem getLsbD_zero_combine (u v : Word) : (combine u v).getLsbD 0 = v.getLsbD 0 := by
  rw [combine_eq_append, BitVec.getLsbD_append, BitVec.getLsbD_extractLsb']
  rfl

/-- The shifted word: bit 31 clear, bit 30 that of `u[31]`, bits 29..0 those of `v[30:1]` (R65). -/
theorem combine_shiftRight_one (u v : Word) :
    combine u v >>> 1 = (0#1 ++ u.extractLsb' 31 1 ++ v.extractLsb' 1 30 : BitVec 32) := by
  refine BitVec.eq_of_getLsbD_eq fun n hn => ?_
  rw [combine_eq_append, BitVec.getLsbD_ushiftRight, BitVec.getLsbD_append, BitVec.getLsbD_append,
    BitVec.getLsbD_append]
  obtain h | rfl | rfl : n < 30 ∨ n = 30 ∨ n = 31 := by omega
  · have h' : 1 + n < 31 := by omega
    simp [h, h']
  · simp
  · simp

/-- The mix by the shifted word and the table (R66). -/
theorem mixByTable_eq_mix (u v : Word) : mixByTable u v = mix u v := by
  unfold mixByTable mix mag01
  dsimp only
  split
  · rfl
  · rw [BitVec.xor_zero]

/-- Settles O29: the mix by the table, with the combined word's bits. -/
theorem mixBits : Obligations.MixBits := by
  intro u v
  rw [← mixByTable_eq_mix, mixByTable, combine_shiftRight_one, getLsbD_zero_combine, mag01]

/-- Settles O30: the two entries of the table are those of the two branches of the mix. -/
theorem mixTableForm : Obligations.MixTableForm := ⟨rfl, rfl, mixByTable_eq_mix⟩

/-! ### The order of the pass (R67, R68) -/

/-- The first `n` steps leave word `n` and those above it as they were (R68). -/
theorem readMT_pass_of_le (mt : StateArray) {n m : Nat} (hle : n ≤ m) (hm : m < 624) :
    readMT (forRange 0 n twistStep mt) m = readMT mt m := by
  refine forRange_induct (fun _ a => readMT a m = readMT mt m) rfl n fun k a hk ih => ?_
  rw [Nat.zero_add, twistStep, readMT_writeMT_ne _ _ (by omega), ih]

/-- A word written by the first `n` steps keeps its value to the end of the pass (R68). -/
theorem readMT_pass_of_lt (mt : StateArray) {n m : Nat} (hlt : m < n) (hn : n ≤ 624) :
    readMT (forRange 0 n twistStep mt) m = readMT (twist mt) m := by
  have hrest : twist mt = forRange n (624 - n) twistStep (forRange 0 n twistStep mt) := by
    rw [twist, ← Nat.add_sub_cancel' hn, forRange_append, Nat.zero_add, Nat.add_sub_cancel_left]
  rw [hrest]
  refine (forRange_induct (fun _ a => readMT a m = readMT (forRange 0 n twistStep mt) m) rfl (624 - n)
    fun k a hk ih => ?_).symm
  rw [twistStep, readMT_writeMT_ne _ _ (by omega), ih]

/-- Word `k` after the pass is what step `k` makes of the words the first `k` steps left (R67). -/
theorem readMT_twist (mt : StateArray) {k : Nat} (hk : k < 624) :
    readMT (twist mt) k = readMT (forRange 0 k twistStep mt) (k + 397) ^^^
      mix (readMT (forRange 0 k twistStep mt) k) (readMT (forRange 0 k twistStep mt) (k + 1)) := by
  rw [← readMT_pass_of_lt mt (Nat.lt_succ_self k) hk, forRange_succ, Nat.zero_add, twistStep, readMT_writeMT_self]

/-- The third operand's index, once the sum passes 623 (R31). -/
theorem readMT_add_397 (mt : StateArray) {k : Nat} (hk : 227 ≤ k) : readMT mt (k + 397) = readMT mt (k - 227) := by
  have hmod : (k + 397) % 624 = (k - 227) % 624 := by omega
  rw [← readMT_mod mt (k + 397), hmod, readMT_mod]

/-- The second operand of the last step is word 0 (R31). -/
theorem readMT_623_add_one (mt : StateArray) : readMT mt (623 + 1) = readMT mt 0 :=
  (readMT_mod mt 624).symm

/-- Settles O31: an operand is new exactly if its index, modulo 624, is below the step's. -/
theorem twistWords : Obligations.TwistWords := by
  intro mt
  refine ⟨fun k hk => ?_, fun k hlo hhi => ?_, ?_⟩
  · rw [readMT_twist mt (by omega), readMT_pass_of_le mt (by omega) (by omega),
      readMT_pass_of_le mt (Nat.le_refl k) (by omega), readMT_pass_of_le mt (Nat.le_succ k) (by omega)]
  · rw [readMT_twist mt (by omega), readMT_add_397 _ hlo, readMT_pass_of_lt mt (by omega) (by omega),
      readMT_pass_of_le mt (Nat.le_refl k) (by omega), readMT_pass_of_le mt (Nat.le_succ k) (by omega)]
  · rw [readMT_twist mt (by omega), readMT_add_397 _ (by omega), readMT_623_add_one,
      readMT_pass_of_lt mt (by omega) (by omega), readMT_pass_of_le mt (Nat.le_refl 623) (by omega),
      readMT_pass_of_lt mt (by omega) (by omega)]

/-! ### The three-range form (R69) -/

/-- Loops whose runs agree in the range agree. -/
theorem forRange_congr {σ : Type} {lo n : Nat} {f g : Nat → σ → σ} (h : ∀ k < n, ∀ a, f (lo + k) a = g (lo + k) a)
    (s : σ) : forRange lo n f s = forRange lo n g s := by
  induction n with
  | zero => simp
  | succ n ih =>
    rw [forRange_succ, forRange_succ, ih fun k hk => h k (Nat.lt_succ_of_lt hk), h n (Nat.lt_succ_self n)]

/-- Settles O32: the pass cut at 227 and 623; only how the operands' indices are written differs. -/
theorem threeRangeFormAgrees : Obligations.ThreeRangeFormAgrees := by
  intro mt
  have hmiddle : ∀ a, forRange 227 396 twistStep a = forRange 227 396
      (fun k m => writeMT m k (readMT m (k - 227) ^^^ mix (readMT m k) (readMT m (k + 1)))) a :=
    forRange_congr fun k _ a => by rw [twistStep, readMT_add_397 a (by omega)]
  have hlast : ∀ a, twistStep 623 a = writeMT a 623 (readMT a 396 ^^^ mix (readMT a 623) (readMT a 0)) := fun a => by
    rw [twistStep, readMT_add_397 a (by omega), readMT_623_add_one]
  rw [twist, forRange_succ 0 623, forRange_append 0 227 396, Nat.zero_add, Nat.zero_add, hmiddle, hlast]
  rfl

/-! ### The list form (R68) -/

/-- The `n` words of the array from index `lo` on. -/
def wordsFrom (mt : StateArray) (lo n : Nat) : List Word := (List.range' lo n).map (readMT mt)

theorem toList_eq_wordsFrom (mt : StateArray) : mt.toList = wordsFrom mt 0 624 := by
  refine List.ext_getElem (by simp [wordsFrom]) fun n _ hn => ?_
  have hlt : n < 624 := by simpa [wordsFrom] using hn
  simp [wordsFrom, readMT_of_lt mt hlt]

theorem wordsFrom_succ (mt : StateArray) (lo n : Nat) :
    wordsFrom mt lo (n + 1) = readMT mt lo :: wordsFrom mt (lo + 1) n := rfl

theorem wordsFrom_append (mt : StateArray) (lo m n : Nat) :
    wordsFrom mt lo m ++ wordsFrom mt (lo + m) n = wordsFrom mt lo (m + n) := by
  simp only [wordsFrom, ← List.map_append, List.range'_append_1]

theorem take_wordsFrom (mt : StateArray) (lo : Nat) {m n : Nat} (h : m ≤ n) :
    (wordsFrom mt lo n).take m = wordsFrom mt lo m := by
  rw [wordsFrom, ← List.map_take, List.take_range'_of_length_ge h, wordsFrom]

theorem drop_wordsFrom (mt : StateArray) (lo m n : Nat) :
    (wordsFrom mt lo n).drop m = wordsFrom mt (lo + m) (n - m) := by
  rw [wordsFrom, ← List.map_drop, List.drop_range', Nat.mul_one, wordsFrom]

/-- The recurrence on lists gives the words that satisfy it, as many as it has of the first operand. -/
theorem twistWordsFrom_wordsFrom {u v w t : StateArray} (j l : Nat) : ∀ {n p q r o : Nat},
    (∀ k < n, readMT t (o + k) = readMT w (r + k) ^^^ mix (readMT u (p + k)) (readMT v (q + k))) →
    twistWordsFrom (wordsFrom u p n) (wordsFrom v q (n + j)) (wordsFrom w r (n + l)) = wordsFrom t o n
  | 0, _, _, _, _, _ => rfl
  | n + 1, p, q, r, o, h => by
    have hhead := h 0 (Nat.succ_pos n)
    simp only [Nat.add_zero] at hhead
    have htail := twistWordsFrom_wordsFrom j l (n := n) (p := p + 1) (q := q + 1) (r := r + 1) (o := o + 1)
      fun k hk => by simpa only [Nat.add_assoc, Nat.add_comm 1] using h (k + 1) (Nat.succ_lt_succ hk)
    rw [Nat.add_right_comm n 1 j, Nat.add_right_comm n 1 l]
    simp only [wordsFrom_succ, twistWordsFrom, htail, hhead]

/-- Settles O33: each of the four lists is the words of its range, by the operands of `twistWords`. -/
theorem twistListAgrees : Obligations.TwistListAgrees := by
  intro mt
  obtain ⟨hold, hnew, hlast⟩ := twistWords mt
  have ha : twistWordsFrom (wordsFrom mt 0 227) (wordsFrom mt 1 623) (wordsFrom mt 397 227) =
      wordsFrom (twist mt) 0 227 :=
    twistWordsFrom_wordsFrom 396 0 fun k hk => by
      rw [Nat.zero_add, Nat.add_comm 397 k, Nat.add_comm 1 k]
      exact hold k (Nat.le_of_lt_succ hk)
  have hb : twistWordsFrom (wordsFrom mt 227 227) (wordsFrom mt 228 396) (wordsFrom (twist mt) 0 227) =
      wordsFrom (twist mt) 227 227 :=
    twistWordsFrom_wordsFrom 169 0 fun k hk => by
      rw [hnew (227 + k) (by omega) (by omega), Nat.add_right_comm 227 k 1, Nat.add_sub_cancel_left, Nat.zero_add]
  have hc : twistWordsFrom (wordsFrom mt 454 169) (wordsFrom mt 455 169) (wordsFrom (twist mt) 227 227) =
      wordsFrom (twist mt) 454 169 :=
    twistWordsFrom_wordsFrom 0 58 fun k hk => by
      rw [hnew (454 + k) (by omega) (by omega), Nat.add_right_comm 454 k 1, Nat.sub_add_comm (by decide)]
  have hd : twistWordsFrom (wordsFrom mt 623 1) (wordsFrom (twist mt) 0 227) (wordsFrom (twist mt) 396 58) =
      wordsFrom (twist mt) 623 1 :=
    twistWordsFrom_wordsFrom 226 57 fun k hk => by
      obtain rfl : k = 0 := by omega
      exact hlast
  rw [toList_eq_wordsFrom, toList_eq_wordsFrom, twistList]
  simp only [drop_wordsFrom, take_wordsFrom, Nat.reduceAdd, Nat.reduceSub, Nat.reduceLeDiff, ha, hb, hc, hd]
  rw [wordsFrom_append _ 0 227 227, wordsFrom_append _ 0 454 169, wordsFrom_append _ 0 623 1]

/-! ### The scheduler's counting law (R70, R71) -/

/-- A command that draws or is refused is a NEXT, or raises one error on every state (R40, R51, R87). -/
theorem exec_of_drawOrRefused {i : Instr} (h : drawOrRefused i = true) :
    i = .next ∨ i ≠ .next ∧ ∃ e, e ≠ .ok ∧ ∀ s, exec i s = raise e s := by
  cases i with
  | seed len =>
    have hlen : len = 0#32 := by simpa [drawOrRefused] using h
    exact .inr ⟨nofun, .invalidSeed, nofun, fun s => hlen ▸ rfl⟩
  | next => exact .inl rfl
  | release => simp [drawOrRefused] at h
  | reserved => exact .inr ⟨nofun, .illegalCommand, nofun, fun s => rfl⟩

/-- The induction over draws among refused commands: what holds of a state after `d` draws, each draw takes to `d + 1`,
and no refusal disturbs, holds after the commands, with their draws counted on. -/
theorem runCommands_draws_induct (P : Nat → State → Prop)
    (hdraw : ∀ d s, P d s → ∃ t, exec .next s = .next t ∧ P (d + 1) t)
    (hrefused : ∀ d s e, e ≠ .ok → P d s → P d { s with responses := s.responses ++ [⟨e, 0#32⟩] }) :
    ∀ (is : List Instr) (d : Nat) (s : State), is.all drawOrRefused = true → P d s →
      ∃ t, runCommands is s = .next t ∧ P (d + is.count .next) t
  | [], d, s, _, h => ⟨s, rfl, h⟩
  | i :: is, d, s, hall, h => by
    obtain ⟨hi, his⟩ := Bool.and_eq_true_iff.1 hall
    obtain rfl | ⟨hne, e, he, hexec⟩ := exec_of_drawOrRefused hi
    · obtain ⟨u, hexec, hu⟩ := hdraw d s h
      obtain ⟨t, hrun, ht⟩ := runCommands_draws_induct P hdraw hrefused is (d + 1) u his hu
      refine ⟨t, (runCommands_of_next hexec).trans hrun, ?_⟩
      rwa [List.count_cons_self, Nat.add_comm _ 1, ← Nat.add_assoc]
    · obtain ⟨t, hrun, ht⟩ := runCommands_draws_induct P hdraw hrefused is d _ his (hrefused d s e he h)
      refine ⟨t, (runCommands_of_next ((hexec s).trans (raise_next.2 rfl))).trans hrun, ?_⟩
      rwa [List.count_cons_of_ne hne]

/-- `s` is a live engine as `d` draws leave one whose batch was exhausted over the array `mt` (R71). -/
structure DrawnFrom (mt : StateArray) (d : Nat) (s : State) : Prop where
  live : s.live = true
  /-- `624` before the first draw, `((d - 1) mod 624) + 1` after it. -/
  cursor : s.idx.val = (d + 623) % 624 + 1
  /-- `ceil(d / 624)` twists. -/
  array : s.mt = twist^[(d + 623) / 624] mt

namespace DrawnFrom

variable {mt : StateArray} {d : Nat} {s : State}

/-- The batch is exhausted before each draw of number 1 modulo 624 (R71). -/
theorem exhausted_iff (h : DrawnFrom mt d s) : s.idx.val = 624 ↔ (d + 1) % 624 = 1 := by
  rw [h.cursor]; omega

/-- The draw twists if the batch is exhausted, and moves the cursor on (R70, R74). -/
theorem draw (h : DrawnFrom mt d s) : DrawnFrom mt (d + 1) (advanceIdx (schedule s)) := by
  have hcur := advanceIdx_schedule_idx s
  by_cases he : s.idx.val = 624
  · have hd := h.exhausted_iff.1 he
    have hcount : (d + 1 + 623) / 624 = (d + 623) / 624 + 1 := by omega
    rw [schedule_exhausted he] at hcur ⊢
    refine ⟨h.live, ?_, ?_⟩
    · rw [hcur, twistEngine_idx, Fin.val_zero]; omega
    · rw [advanceIdx_mt, twistEngine_mt, h.array, hcount, Function.iterate_succ_apply']
  · have hd := h.exhausted_iff.not.1 he
    have hcount : (d + 1 + 623) / 624 = (d + 623) / 624 := by omega
    rw [schedule_fresh he] at hcur ⊢
    refine ⟨h.live, ?_, ?_⟩
    · rw [hcur, h.cursor]; omega
    · rw [advanceIdx_mt, h.array, hcount]

/-- NEXT on such an engine is one more draw. -/
theorem exec_next (h : DrawnFrom mt d s) : ∃ t, exec .next s = .next t ∧ DrawnFrom mt (d + 1) t :=
  ⟨_, exec_of_effect (.drawn h.live), h.draw.live, h.draw.cursor, h.draw.array⟩

end DrawnFrom

/-- Settles O39, by induction over the commands: `DrawnFrom` counts the draws. -/
theorem twistsAreCounted : Obligations.TwistsAreCounted := by
  intro s is hlive hidx hall
  obtain ⟨t, hrun, ht⟩ := runCommands_draws_induct (DrawnFrom s.mt) (fun _ _ h => h.exec_next)
    (fun _ _ _ _ h => ⟨h.live, h.cursor, h.array⟩) is 0 s hall ⟨hlive, hidx, rfl⟩
  rw [Nat.zero_add] at ht
  refine ⟨t, hrun, ht.live, ?_, ht.array, (batchExhausted_iff t).trans ht.exhausted_iff⟩
  rw [ht.cursor]
  split <;> omega

end Sys2Proof.Machine
end

section
/-! PROOFS. The draw statements (42_draw_temper.md): the temper's four stages and that each is injective, what NEXT
draws, and the stream law of the draws after a SEED. -/

namespace Sys2Proof.Machine

/-! ### The temper (R75, R76) -/

/-- Settles O35: the pipeline's stages are the rule's lines. -/
theorem temperSteps : Obligations.TemperSteps := by
  rintro y0 y1 y2 y3 y4 (rfl : y1 = temperStage1 y0) (rfl : y2 = temperStage2 _) (rfl : y3 = temperStage3 _)
    (rfl : y4 = temperStage4 _)
  rfl

/-- A word that is its own shift to the right is zero: the shift makes every other word less. -/
theorem eq_zero_of_eq_ushiftRight {w k : Nat} (hk : 0 < k) {z : BitVec w} (h : z = z >>> k) : z = 0#w := by
  by_contra hz
  have hpos : 0 < z.toNat := Nat.pos_of_ne_zero fun h0 => hz (BitVec.eq_of_toNat_eq h0)
  have hfix : z.toNat = z.toNat / 2 ^ k := by
    rw [← Nat.shiftRight_eq_div_pow, ← BitVec.toNat_ushiftRight, ← h]
  have hless : z.toNat / 2 ^ k < z.toNat := Nat.div_lt_self hpos (Nat.one_lt_two_pow hk.ne')
  omega

/-- A word that is its own masked shift to the left is zero: each bit is clear or that of a lower place. -/
theorem eq_zero_of_eq_shiftLeft_and {w k : Nat} (hk : 0 < k) {z m : BitVec w} (h : z = (z <<< k) &&& m) :
    z = 0#w := by
  have hclear : ∀ n, z.getLsbD n = false := fun n => by
    induction n using Nat.strong_induction_on with
    | _ n ih =>
      rw [h, BitVec.getLsbD_and, BitVec.getLsbD_shiftLeft]
      by_cases hn : n < k
      · simp [hn]
      · simp [ih (n - k) (by omega)]
  exact BitVec.eq_of_getLsbD_eq fun n _ => by rw [hclear, BitVec.getLsbD_zero]

/-- A stage XORs a word with a function of it that goes through XOR. It is injective if that function fixes zero
alone: two words with one image differ by a word it fixes. -/
theorem xor_apply_injective {w : Nat} {g : BitVec w → BitVec w} (hxor : ∀ x y, g (x ^^^ y) = g x ^^^ g y)
    (hfix : ∀ z, z = g z → z = 0#w) : Function.Injective fun x => x ^^^ g x := by
  intro x y (h : x ^^^ g x = y ^^^ g y)
  have hzero : (x ^^^ y) ^^^ g (x ^^^ y) = 0#w :=
    calc (x ^^^ y) ^^^ g (x ^^^ y) = (x ^^^ g x) ^^^ (y ^^^ g y) := by rw [hxor]; ac_rfl
      _ = 0#w := BitVec.xor_eq_zero_iff.2 h
  exact BitVec.xor_eq_zero_iff.1 (hfix _ (BitVec.xor_eq_zero_iff.1 hzero))

theorem xor_ushiftRight_injective {w k : Nat} (hk : 0 < k) :
    Function.Injective fun y : BitVec w => y ^^^ (y >>> k) :=
  xor_apply_injective (fun x y => BitVec.ushiftRight_xor_distrib x y k) fun _ => eq_zero_of_eq_ushiftRight hk

theorem xor_and_distrib_right {w : Nat} (x y m : BitVec w) : (x ^^^ y) &&& m = (x &&& m) ^^^ (y &&& m) :=
  BitVec.eq_of_getLsbD_eq fun n _ => by simp only [BitVec.getLsbD_and, BitVec.getLsbD_xor, Bool.and_xor_distrib_right]

theorem xor_shiftLeft_and_injective {w k : Nat} (hk : 0 < k) (m : BitVec w) :
    Function.Injective fun y : BitVec w => y ^^^ ((y <<< k) &&& m) :=
  xor_apply_injective (fun x y => by rw [BitVec.shiftLeft_xor_distrib, xor_and_distrib_right])
    fun _ => eq_zero_of_eq_shiftLeft_and hk

/-- The temper is injective, since each of its stages is. -/
theorem temper_injective : Function.Injective temper := by
  have h1 : Function.Injective temperStage1 := xor_ushiftRight_injective (by decide)
  have h2 : Function.Injective temperStage2 := xor_shiftLeft_and_injective (by decide) _
  have h3 : Function.Injective temperStage3 := xor_shiftLeft_and_injective (by decide) _
  have h4 : Function.Injective temperStage4 := xor_ushiftRight_injective (by decide)
  exact h4.comp (h3.comp (h2.comp h1))

/-- Settles O36: there are finitely many words, so the injective temper is onto. -/
theorem temperIsBijective : Obligations.TemperIsBijective := Finite.injective_iff_bijective.1 temper_injective

/-! ### The draw (R74, R80) -/

/-- Settles O37: the draw is on the state the scheduler leaves, whose array and cursor depend on the batch. -/
theorem nextDrawsTemperedWord : Obligations.NextDrawsTemperedWord := by
  refine ⟨fun s habsent => (exec_next_of_absent habsent).trans (raise_next.2 rfl), fun s hlive => ?_⟩
  have hcur := advanceIdx_schedule_idx s
  refine ⟨_, exec_of_effect (.drawn hlive), ?_, ?_, ?_, ?_, ?_, fun hfresh => ?_, fun hex => ?_⟩
  · exact (schedule_live s).trans hlive
  · exact schedule_key s
  · exact schedule_host s
  · exact schedule_keyReads s
  · exact schedule_freeCount s
  · rw [schedule_fresh hfresh.ne] at hcur ⊢
    exact ⟨rfl, hcur, rfl⟩
  · rw [schedule_exhausted hex] at hcur ⊢
    exact ⟨rfl, hcur, rfl⟩

/-! ### The recurrence and the twists (R68, R79) -/

/-- `x` begins with the array `mt` and goes on by the recurrence (R79). -/
structure IsStream (mt : StateArray) (x : Nat → Word) : Prop where
  base : ∀ n, n < 624 → x n = readMT mt n
  step : ∀ n, x (n + 624) = x (n + 397) ^^^ mix (x n) (x (n + 1))

namespace IsStream

variable {mt : StateArray} {x : Nat → Word}

/-- The second batch of the stream is the twisted array: the pass is the recurrence, old operands from the first batch
and new ones from the second (R68). -/
theorem readMT_twist (h : IsStream mt x) (k : Nat) (hk : k < 624) : x (k + 624) = readMT (twist mt) k := by
  obtain ⟨hold, hnew, hlast⟩ := twistWords mt
  induction k using Nat.strong_induction_on with
  | _ k ih =>
    rw [h.step, h.base k hk]
    obtain hlo | hmid | rfl : k ≤ 226 ∨ (227 ≤ k ∧ k ≤ 622) ∨ k = 623 := by omega
    · rw [hold k hlo, h.base (k + 397) (by omega), h.base (k + 1) (by omega)]
    · obtain ⟨hge, hle⟩ := hmid
      have hidx : k + 397 = k - 227 + 624 := by omega
      rw [hnew k hge hle, hidx, ih (k - 227) (by omega) (by omega), h.base (k + 1) (by omega)]
    · rw [hlast, ← ih 396 (by omega) (by omega), ← ih 0 (by omega) (by omega)]

/-- From its second batch on, the stream is that of the twisted array. -/
theorem shift (h : IsStream mt x) : IsStream (twist mt) fun n => x (n + 624) where
  base := h.readMT_twist
  step n := by rw [h.step, Nat.add_right_comm n 624 397, Nat.add_right_comm n 624 1]

/-- Batch `q` of the stream is the array after `q` twists. -/
theorem readMT_iterate_twist : ∀ {mt : StateArray} {x : Nat → Word} (_ : IsStream mt x) (q : Nat) {k : Nat},
    k < 624 → x (k + 624 * q) = readMT (twist^[q] mt) k
  | _, _, h, 0, _, hk => h.base _ hk
  | mt, x, h, q + 1, k, hk => by
    rw [Function.iterate_succ_apply, ← h.shift.readMT_iterate_twist q hk, Nat.mul_succ, Nat.add_assoc]

end IsStream

/-! ### The stream law (R79) -/

/-- The raw word of the draw of number `e + 1` from a live engine whose batch was exhausted over `mt` (R71, R74). -/
def drawnWord (mt : StateArray) (e : Nat) : Word := readMT (twist^[e / 624 + 1] mt) (e % 624)

theorem IsStream.drawnWord_eq {mt : StateArray} {x : Nat → Word} (h : IsStream mt x) (e : Nat) :
    drawnWord mt e = x (624 + e) := by
  have hidx : 624 + e = e % 624 + 624 * (e / 624 + 1) := by omega
  rw [hidx, h.readMT_iterate_twist _ (Nat.mod_lt e (by decide)), drawnWord]

/-- After `d` draws the next one draws the word of its number. -/
theorem DrawnFrom.rawWord_schedule {mt : StateArray} {d : Nat} {s : State} (h : DrawnFrom mt d s) :
    rawWord (schedule s) = drawnWord mt d := by
  have hcur := h.draw.cursor
  rw [advanceIdx_schedule_idx, Nat.add_assoc, Nat.add_mod_right] at hcur
  have harr := h.draw.array
  rw [advanceIdx_mt, Nat.add_assoc, Nat.add_div_right d (by decide)] at harr
  rw [rawWord, Nat.succ.inj hcur, harr, drawnWord]

theorem okData_append (rs qs : List Response) : okData (rs ++ qs) = okData rs ++ okData qs := by
  simp only [okData, List.filter_append, List.map_append]

/-- `s` is as `d` draws among refused commands leave a live engine whose batch was exhausted over `mt`, and `before` the
responses: the OK responses since carry the tempered words of the draws, in order. -/
structure DrawnSince (mt : StateArray) (before : List Response) (d : Nat) (s : State) : Prop where
  engine : DrawnFrom mt d s
  answers : ∃ new, s.responses = before ++ new ∧ okData new = (List.range d).map fun e => temper (drawnWord mt e)

namespace DrawnSince

variable {mt : StateArray} {before : List Response} {d : Nat} {s : State}

/-- A draw gives one more OK response, with the tempered word of its number. -/
theorem exec_next (h : DrawnSince mt before d s) : ∃ t, exec .next s = .next t ∧ DrawnSince mt before (d + 1) t := by
  obtain ⟨hengine, new, hresp, hdata⟩ := h
  have hdraw := hengine.draw
  refine ⟨_, exec_of_effect (.drawn hengine.live), ⟨hdraw.live, hdraw.cursor, hdraw.array⟩,
    new ++ [⟨.ok, temper (drawnWord mt d)⟩], ?_, ?_⟩
  · simp only [advanceIdx_responses, schedule_responses, hresp, hengine.rawWord_schedule, List.append_assoc]
  · rw [okData_append, hdata, List.range_succ, List.map_append]
    rfl

/-- A refusal gives no OK response and leaves the engine as it was (R87). -/
theorem refused (h : DrawnSince mt before d s) {e : Status} (he : e ≠ .ok) :
    DrawnSince mt before d { s with responses := s.responses ++ [⟨e, 0#32⟩] } := by
  obtain ⟨hengine, new, hresp, hdata⟩ := h
  refine ⟨⟨hengine.live, hengine.cursor, hengine.array⟩, new ++ [⟨e, 0#32⟩], ?_, ?_⟩
  · simp only [hresp, List.append_assoc]
  · have hnone : okData [⟨e, 0#32⟩] = [] := by simp [okData, he]
    rw [okData_append, hdata, hnone, List.append_nil]

end DrawnSince

/-- Settles O38, by induction over the commands: SEED leaves a live engine with its batch exhausted, `DrawnSince` says
which words it has drawn, and the stream has them in its batches. -/
theorem drawsFollowTheRecurrence : Obligations.DrawsFollowTheRecurrence := by
  intro len s0 is hlen hkey hall
  obtain ⟨s, hseed, hlive, hidx⟩ : ∃ s, exec (.seed len) s0 = .next s ∧ s.live = true ∧ s.idx.val = 624 :=
    ⟨_, exec_of_effect (.seeded len hlen hkey), rfl, rfl⟩
  obtain ⟨t, hrun, ht⟩ := runCommands_draws_induct (DrawnSince s.mt s.responses) (fun _ _ h => h.exec_next)
    (fun _ _ _ he h => h.refused he) is 0 s hall ⟨⟨hlive, hidx, rfl⟩, [], (List.append_nil _).symm, rfl⟩
  obtain ⟨new, hresp, hdata⟩ := ht.answers
  refine ⟨s, t, hseed, hrun, fun x hbase hstep => ?_⟩
  have hx : IsStream s.mt x := ⟨hbase, hstep⟩
  simp only [hresp, List.drop_left, hdata, hx.drawnWord_eq, Nat.zero_add]

end Sys2Proof.Machine
end

section
/-! PROOFS. The lifecycle statements (43_lifecycle.md): `LIVE` after each command, and RELEASE on a live and on an absent
engine. -/

namespace Sys2Proof.Machine

/-- Settles O43: the effects of a completed command that write `LIVE` are a successful SEED, which sets it, and RELEASE
on a live engine, which clears it. -/
theorem lifecycleTable : Obligations.LifecycleTable := by
  intro i s t h
  obtain ⟨r, u, heff, rfl⟩ := effect_of_exec_next h
  cases heff with
  | emptySeed => exact (if_pos rfl).symm
  | seeded len hlen => exact (if_neg hlen).symm
  | drawn => exact schedule_live s
  | released => rfl
  | absentRelease habsent => exact habsent
  | absentNext | reserved => rfl

/-- Settles O40: RELEASE leaves the engine absent, and NEXT is refused on an absent engine. -/
theorem releaseEndsTheGenerator : Obligations.ReleaseEndsTheGenerator :=
  fun _ hlive => ⟨_, exec_of_effect (.released hlive), rfl, rfl, rfl, rfl, rfl,
    (exec_next_of_absent rfl).trans (raise_next.2 rfl)⟩

/-- Settles O41: of the effects of RELEASE, the one on an absent engine leaves the state as it was. -/
theorem releaseOfAbsentIsNoOp : Obligations.ReleaseOfAbsentIsNoOp :=
  fun _ habsent => exec_of_effect (.absentRelease habsent)

end Sys2Proof.Machine
end

section
/-! PROOFS. The exceptions statements (60_exceptions.md): what an error response leaves, which command stops, the idle
engine, and interleaved instances. -/

namespace Sys2Proof.Machine

/-! ### Error responses (R87) -/

/-- A command that answers an error has no effect of its own, and its data is 0. -/
theorem effect_of_error {i : Instr} {s u : State} {r : Response} (h : Effect s i r u) (herr : r.status ≠ .ok) :
    r.data = 0#32 ∧ u = s := by
  cases h with
  | emptySeed | absentNext | reserved => exact ⟨rfl, rfl⟩
  | seeded | drawn | released | absentRelease => exact absurd rfl herr

/-- Settles O45: the one response added is that of the command's effect, and an error's effect is none. -/
theorem errorsChangeNothing : Obligations.ErrorsChangeNothing := by
  intro i s t r h hresp herr
  obtain ⟨r', u, heff, rfl⟩ := effect_of_exec_next h
  obtain rfl : r' = r := by simpa [effect_responses heff] using hresp
  obtain ⟨hdata, rfl⟩ := effect_of_error heff herr
  exact ⟨hdata, rfl⟩

/-! ### The one stop (R78, R88, R107) -/

theorem answersAll_eq_false_iff (k : KeySpace) (len : Nat) : answersAll k len = false ↔ k.answered < len := by
  rw [answersAll, decide_eq_false_iff_not, Nat.not_le]

/-- SEED with LEN >= 1 and a host that leaves a read unanswered waits for ever (R107). -/
theorem exec_seed_of_silent {len : Word} {s : State} (hlen : len ≠ 0#32) (hkey : s.key.answered < len.toNat) :
    exec (.seed len) s = .fault .keyNeverAnswered := by
  rw [exec_seed, execSeed, if_neg hlen, (answersAll_eq_false_iff _ _).2 hkey, if_neg Bool.false_ne_true]

/-- A command completes, or is a SEED of a silent host, which waits. -/
theorem exec_completes_or_waits (i : Instr) (s : State) :
    (∃ t, exec i s = .next t) ∨
    ∃ len, i = .seed len ∧ len ≠ 0#32 ∧ s.key.answered < len.toNat ∧ exec i s = .fault .keyNeverAnswered := by
  cases i with
  | seed len =>
    obtain ⟨-, e⟩ | ⟨-, -, e⟩ | ⟨hlen, hkey, e⟩ := execSeed_cases len s
    · exact .inl ⟨_, e⟩
    · exact .inl ⟨_, e⟩
    · exact .inr ⟨len, rfl, hlen, (answersAll_eq_false_iff _ _).1 hkey, e⟩
  | next | release | reserved => exact .inl (exec_completes nofun)

/-- Settles O47: a command that does not complete is a SEED of a silent host, and such a SEED waits. -/
theorem onlySilentHostStops : Obligations.OnlySilentHostStops := by
  intro i s
  refine ⟨fun r h => ?_, fun f => ⟨fun h => ?_, ?_⟩⟩
  · obtain ⟨t, e⟩ | ⟨len, -, -, -, e⟩ := exec_completes_or_waits i s <;> cases e.symm.trans h
  · obtain ⟨t, e⟩ | ⟨len, hi, hlen, hkey, e⟩ := exec_completes_or_waits i s <;> cases e.symm.trans h
    exact ⟨rfl, len, hi, hlen, hkey⟩
  · rintro ⟨rfl, len, rfl, hlen, hkey⟩
    exact exec_seed_of_silent hlen hkey

/-! ### The idle engine (R98) -/

/-- Settles O13: with no event at the inputs a step has nothing to do. -/
theorem idleKeepsState : Obligations.IdleKeepsState := fun _ h => step_of_host_nil h

/-! ### Interleaved instances (R99) -/

/-- A step of one instance is a step of that instance and leaves every other where it is. -/
theorem getElem?_stepSystemAt (m n : Nat) (sys : System) :
    (stepSystemAt m sys)[n]? = sys[n]?.map (if m = n then stepInstance else id) := by
  by_cases h : m = n
  · subst h
    rw [if_pos rfl, stepSystemAt, List.getElem?_modify_eq, Option.map_eq_map]
  · rw [if_neg h, Option.map_id_apply, stepSystemAt, List.getElem?_modify_ne _ _ h]

/-- An interleaving takes each instance as many of its own steps as the schedule names it. -/
theorem getElem?_runInterleaved (sched : List Nat) (sys : System) (n : Nat) :
    (runInterleaved sched sys)[n]? = sys[n]?.map stepInstance^[sched.count n] := by
  induction sched generalizing sys with
  | nil => exact (Option.map_id_apply).symm
  | cons m rest ih =>
    have hrest : runInterleaved (m :: rest) sys = runInterleaved rest (stepSystemAt m sys) := rfl
    rw [hrest, ih, getElem?_stepSystemAt, Option.map_map]
    by_cases h : m = n
    · subst h
      rw [if_pos rfl, List.count_cons_self, Function.iterate_succ]
    · rw [if_neg h, List.count_cons_of_ne h, Function.comp_id]

theorem stepInstance_of_next {s t : State} (h : step s = .next t) : stepInstance s = t := by
  simp only [stepInstance, h]

/-- A run of `n` steps that does not stop ends where `n` steps of an instance lead. -/
theorem iterate_stepInstance_of_runSteps {n : Nat} {s t : State} (h : runSteps n s = .next t) :
    stepInstance^[n] s = t := by
  induction n generalizing s with
  | zero => cases h; rfl
  | succ n ih =>
    cases e : step s with
    | next u =>
      rw [Function.iterate_succ_apply, stepInstance_of_next e]
      exact ih ((runSteps_of_next e).symm.trans h)
    | fault f => cases (runSteps_of_fault e).symm.trans h
    | refused r => cases (runSteps_of_refused e).symm.trans h

/-- Settles O52: the interleaving leads each instance by its own steps, and with a host that answers these are its run
alone, which never stops. -/
theorem instancesAreIndependent : Obligations.InstancesAreIndependent := by
  refine ⟨getElem?_runInterleaved, fun sched sys n s hs hduty => ?_⟩
  obtain ⟨t, hrun, -, -⟩ := answeredRunsNeverStop (sched.count n) s hduty
  refine ⟨t, hrun, ?_⟩
  rw [getElem?_runInterleaved, hs, Option.map_some, iterate_stepInstance_of_runSteps hrun]

end Sys2Proof.Machine
end

section
/-! PROOFS. The reset and hazard statements (70_reset_and_hazards.md): the engine the reset input leaves, and the SEED
of a host that falls silent. -/

namespace Sys2Proof.Machine

/-- Settles O14: the step is `resetEngine` on the state without the event. The engine it leaves is absent, which decides
the effects of NEXT and RELEASE, and SEED does not test `LIVE` (R60). -/
theorem resetInputLeavesAbsent : Obligations.ResetInputLeavesAbsent := by
  intro s rest hhost
  have habsent : (resetEngine { s with host := rest }).live = false := resetEngine_live _
  refine ⟨_, step_of_host_reset hhost, habsent, resetEngine_host _, resetEngine_key _, resetEngine_responses _,
    resetEngine_keyReads _, exec_of_effect (.absentNext habsent), exec_of_effect (.absentRelease habsent), ?_⟩
  intro len hlen hkey
  exact ⟨_, exec_of_effect (.seeded len hlen hkey), rfl⟩

/-- Settles O19: `execSeed` goes on only if the key answers LEN reads. -/
theorem seedWaitsForSilentHost : Obligations.SeedWaitsForSilentHost :=
  fun _ _ hlen hkey => exec_seed_of_silent hlen hkey

end Sys2Proof.Machine
end
